-- ==== Sys2Proof/Word.lean ====
section
/-! DEFINITION. Words of the command port: the 32-bit command word, the 64-bit binary64 pattern that stands for a
NUM on `cmd_data` and `rsp_data` (00_scope.md R8, 30_encoding.md R50, R51), and the pair of them that makes one command. -/

namespace Sys2Proof

/-- A command word or a response status word (30_encoding.md R50, R51, R56). -/
abbrev Word := BitVec 32

/-- A byte: the operand of CKADD, the result of CLS (20_memory.md R40). -/
abbrev Byte := BitVec 8

/-- A binary64 bit pattern, sign in bit 63 (00_scope.md R8). What its bits mean is in `Machine/Float64.lean`. -/
abbrev F64 := BitVec 64

/-- One command as the host presents it: the word on `cmd_word` and the pattern on `cmd_data` (30_encoding.md R51). -/
structure Command where
  /-- `cmd_word` -/
  word : Word
  /-- `cmd_data`, used by WPUSH only (30_encoding.md R52) -/
  data : F64
  deriving DecidableEq, Repr

end Sys2Proof
end

