-- ==== Sys2Proof/Syntax.lean ====
section
/-! DEFINITION. The command set GTD-1: one constructor for each row of spec/opcode_table.json (30_encoding.md R53). -/

namespace Sys2Proof

/-- The twenty commands. An operand is the unsigned integer that 30_encoding.md R52 reads from its field; which values
the field admits is `Instr.wellFormed`. WPUSH carries the pattern sampled on `cmd_data`. -/
inductive Instr where
  /-- NOP (45_system.md R120) -/
  | nop
  /-- SRST, soft reset (R121) -/
  | srst
  /-- DCLR, clear the decoder-side registers (R122) -/
  | dclr
  /-- RDST, read the status word (R123) -/
  | rdst
  /-- WCLR, empty the window (40_window.md R70) -/
  | wclr
  /-- WPUSH, append one sample (R71) -/
  | wpush (x : F64)
  /-- GZR, raw power at one tracked frequency (41_detector.md R79) -/
  | gzr (idx : Nat)
  /-- GZN, noise-normalised power (R80) -/
  | gzn (idx : Nat)
  /-- CALCLR, clear the calibration accumulators (42_calibration.md R86) -/
  | calclr
  /-- CALACC, accumulate the current window (R87) -/
  | calacc
  /-- CALFIN, finish calibration (R88) -/
  | calfin
  /-- NFDIS, disable noise normalisation (R89) -/
  | nfdis
  /-- RDNF, read one noise-floor register (R90) -/
  | rdnf (idx : Nat)
  /-- CLS, classify the symbol in the window (43_classifier.md R100) -/
  | cls
  /-- NCLR, drop the pending nibble (R101) -/
  | nclr
  /-- RDFT, read one entry of the frequency table (R102) -/
  | rdft (idx : Nat)
  /-- CKCLR, clear the checksum accumulator (44_checksum.md R112) -/
  | ckclr
  /-- CKADD, add one byte (R113) -/
  | ckadd (imm8 : Nat)
  /-- CKRD, read the checksum accumulator (R114) -/
  | ckrd
  /-- CKCMP, compare with a received checksum (R115) -/
  | ckcmp (imm16 : Nat)
  deriving DecidableEq, Repr

end Sys2Proof
end

