-- ==== Sys2Proof/WellFormed.lean ====
section
/-! DEFINITION. Which instructions have an encoding: each operand lies in the range of its field (30_encoding.md R52,
R60). An `idx` of 19..31 is well formed: it decodes to its command, which then faults with `E_INDEX` (R54). -/

namespace Sys2Proof

/-- The operand ranges of 30_encoding.md R52: `idx` 0..31, `imm8` 0..255, `imm16` 0..65535. The data operand of WPUSH
is any 64-bit pattern (a non-finite one is refused by the command, 40_window.md R71, not by its form). -/
def Instr.wellFormed : Instr → Bool
  | .nop | .srst | .dclr | .rdst => true
  | .wclr | .wpush _ => true
  | .gzr idx | .gzn idx => decide (idx ≤ 31)
  | .calclr | .calacc | .calfin | .nfdis => true
  | .rdnf idx => decide (idx ≤ 31)
  | .cls | .nclr => true
  | .rdft idx => decide (idx ≤ 31)
  | .ckclr | .ckrd => true
  | .ckadd imm8 => decide (imm8 ≤ 255)
  | .ckcmp imm16 => decide (imm16 ≤ 65535)

end Sys2Proof
end

