-- ==== Sys2Proof/Decode.lean ====
section
/-! DEFINITION. The decoder of command words, total on any 32-bit word and rejecting by name, and the encoder
(30_encoding.md R51 to R55). -/

namespace Sys2Proof

/-- Why a command word is illegal (30_encoding.md R54). Both kinds end in `E_ILLEGAL`. -/
inductive DecodeError where
  /-- the opcode byte is none of the twenty of R53 -/
  | unknownOpcode (op : Nat)
  /-- the opcode is listed, and a reserved bit of its format is not zero -/
  | reservedBits (op : Nat)
  deriving DecidableEq, Repr

/-- Bits 31:24, the opcode in every format (30_encoding.md R51). -/
def opcodeByte (w : Word) : Nat := w.toNat / 2 ^ 24

/-- Bits 23:0: the operand field and the reserved bits above it (30_encoding.md R51). -/
def operandBits (w : Word) : Nat := w.toNat % 2 ^ 24

/-- A command whose operand field is the low `width` bits; the bits from there to bit 23 are reserved and must be zero
(30_encoding.md R51: width 0 is format Z, 5 is X, 8 is B, 16 is H; R54). -/
def decodeOperand (width : Nat) (w : Word) (build : Nat → Instr) : Except DecodeError Instr :=
  if operandBits w < 2 ^ width then .ok (build (operandBits w)) else .error (.reservedBits (opcodeByte w))

/-- The instruction a command word and its data operand stand for (30_encoding.md R53). `data` reaches WPUSH only
(R52: every other command ignores it). -/
def decode (w : Word) (data : F64) : Except DecodeError Instr :=
  match opcodeByte w with
  | 0x00 => decodeOperand 0 w (fun _ => .nop)
  | 0x01 => decodeOperand 0 w (fun _ => .srst)
  | 0x02 => decodeOperand 0 w (fun _ => .dclr)
  | 0x03 => decodeOperand 0 w (fun _ => .rdst)
  | 0x10 => decodeOperand 0 w (fun _ => .wclr)
  | 0x11 => decodeOperand 0 w (fun _ => .wpush data)
  | 0x20 => decodeOperand 5 w .gzr
  | 0x21 => decodeOperand 5 w .gzn
  | 0x30 => decodeOperand 0 w (fun _ => .calclr)
  | 0x31 => decodeOperand 0 w (fun _ => .calacc)
  | 0x32 => decodeOperand 0 w (fun _ => .calfin)
  | 0x33 => decodeOperand 0 w (fun _ => .nfdis)
  | 0x34 => decodeOperand 5 w .rdnf
  | 0x40 => decodeOperand 0 w (fun _ => .cls)
  | 0x41 => decodeOperand 0 w (fun _ => .nclr)
  | 0x42 => decodeOperand 5 w .rdft
  | 0x50 => decodeOperand 0 w (fun _ => .ckclr)
  | 0x51 => decodeOperand 8 w .ckadd
  | 0x52 => decodeOperand 0 w (fun _ => .ckrd)
  | 0x53 => decodeOperand 16 w .ckcmp
  | op => .error (.unknownOpcode op)

/-- The opcode column of 30_encoding.md R53. -/
def Instr.opcode : Instr → Nat
  | .nop => 0x00
  | .srst => 0x01
  | .dclr => 0x02
  | .rdst => 0x03
  | .wclr => 0x10
  | .wpush _ => 0x11
  | .gzr _ => 0x20
  | .gzn _ => 0x21
  | .calclr => 0x30
  | .calacc => 0x31
  | .calfin => 0x32
  | .nfdis => 0x33
  | .rdnf _ => 0x34
  | .cls => 0x40
  | .nclr => 0x41
  | .rdft _ => 0x42
  | .ckclr => 0x50
  | .ckadd _ => 0x51
  | .ckrd => 0x52
  | .ckcmp _ => 0x53

/-- The value of the operand field, zero where the format has none (30_encoding.md R51). -/
def Instr.operand : Instr → Nat
  | .nop | .srst | .dclr | .rdst | .wclr | .wpush _ => 0
  | .gzr idx | .gzn idx => idx
  | .calclr | .calacc | .calfin | .nfdis => 0
  | .rdnf idx => idx
  | .cls | .nclr => 0
  | .rdft idx => idx
  | .ckclr => 0
  | .ckadd imm8 => imm8
  | .ckrd => 0
  | .ckcmp imm16 => imm16

/-- What the assembler puts on `cmd_data`: the sample for WPUSH, `+0` for every other command (30_encoding.md R60). -/
def Instr.data : Instr → F64
  | .wpush x => x
  | .nop | .srst | .dclr | .rdst | .wclr | .gzr _ | .gzn _ | .calclr | .calacc | .calfin | .nfdis | .rdnf _ | .cls
  | .nclr | .rdft _ | .ckclr | .ckadd _ | .ckrd | .ckcmp _ => 0#64

/-- The command a well-formed instruction is presented as (30_encoding.md R51, R53, R60). -/
def encode (i : Instr) : Command where
  word := BitVec.ofNat 32 (i.opcode * 2 ^ 24 + i.operand)
  data := i.data

/-- One row of the opcode map as the spec prints it (30_encoding.md R53): a word `w` is the command exactly when
`w AND mask = pattern`. -/
structure OpcodeRow where
  mnemonic : String
  pattern : Word
  mask : Word
  deriving DecidableEq, Repr

/-- The opcode map of 30_encoding.md R53, columns mnemonic, match and mask. -/
def opcodeMap : List OpcodeRow := [
  ⟨"NOP", 0x00000000#32, 0xFFFFFFFF#32⟩,
  ⟨"SRST", 0x01000000#32, 0xFFFFFFFF#32⟩,
  ⟨"DCLR", 0x02000000#32, 0xFFFFFFFF#32⟩,
  ⟨"RDST", 0x03000000#32, 0xFFFFFFFF#32⟩,
  ⟨"WCLR", 0x10000000#32, 0xFFFFFFFF#32⟩,
  ⟨"WPUSH", 0x11000000#32, 0xFFFFFFFF#32⟩,
  ⟨"GZR", 0x20000000#32, 0xFFFFFFE0#32⟩,
  ⟨"GZN", 0x21000000#32, 0xFFFFFFE0#32⟩,
  ⟨"CALCLR", 0x30000000#32, 0xFFFFFFFF#32⟩,
  ⟨"CALACC", 0x31000000#32, 0xFFFFFFFF#32⟩,
  ⟨"CALFIN", 0x32000000#32, 0xFFFFFFFF#32⟩,
  ⟨"NFDIS", 0x33000000#32, 0xFFFFFFFF#32⟩,
  ⟨"RDNF", 0x34000000#32, 0xFFFFFFE0#32⟩,
  ⟨"CLS", 0x40000000#32, 0xFFFFFFFF#32⟩,
  ⟨"NCLR", 0x41000000#32, 0xFFFFFFFF#32⟩,
  ⟨"RDFT", 0x42000000#32, 0xFFFFFFE0#32⟩,
  ⟨"CKCLR", 0x50000000#32, 0xFFFFFFFF#32⟩,
  ⟨"CKADD", 0x51000000#32, 0xFFFFFF00#32⟩,
  ⟨"CKRD", 0x52000000#32, 0xFFFFFFFF#32⟩,
  ⟨"CKCMP", 0x53000000#32, 0xFFFF0000#32⟩]

/-- The mnemonic column of 30_encoding.md R53. -/
def Instr.mnemonic : Instr → String
  | .nop => "NOP"
  | .srst => "SRST"
  | .dclr => "DCLR"
  | .rdst => "RDST"
  | .wclr => "WCLR"
  | .wpush _ => "WPUSH"
  | .gzr _ => "GZR"
  | .gzn _ => "GZN"
  | .calclr => "CALCLR"
  | .calacc => "CALACC"
  | .calfin => "CALFIN"
  | .nfdis => "NFDIS"
  | .rdnf _ => "RDNF"
  | .cls => "CLS"
  | .nclr => "NCLR"
  | .rdft _ => "RDFT"
  | .ckclr => "CKCLR"
  | .ckadd _ => "CKADD"
  | .ckrd => "CKRD"
  | .ckcmp _ => "CKCMP"

/-- The instruction read from a table word: every GTD command is one 32-bit word, presented here with `cmd_data = +0`. -/
def decodeTableWord (nbits w : Nat) : Option Instr :=
  match decode (BitVec.ofNat 32 (w % 2 ^ nbits)) 0#64 with
  | .ok i => some i
  | .error _ => none

end Sys2Proof
end

