-- ==== Sys2Proof/Config.lean ====
section
/-! DEFINITION. What an instance fixes and what stays open: the implementation parameters (00_scope.md R6, R10), the
spec's own test configuration TC1 (95_test_vectors.md section 2), and the one free value of the model. -/

namespace Sys2Proof

/-- The implementation parameters of one instance (00_scope.md R6). The tone parameters, the sample rate and epsilon are
exact numbers of type `ρ`: any real number (`ρ = ℝ`), or, where a machine has to run, any rational (`ρ = ℚ`, log entry 4).
`α` is the number type NUM. The tables derived from the parameters are in `Machine/Operands.lean`.
The Goertzel coefficients are an argument, as 00_scope.md R10 asks: the model computes no cosine. -/
structure Params (ρ α : Type) where
  /-- `N_SYM`, samples per symbol window -/
  nSym : Nat
  /-- `FS`, sample rate in Hz -/
  fs : ρ
  /-- `F_PRE_A`, preamble tone A in Hz -/
  fPreA : ρ
  /-- `F_PRE_B`, preamble tone B in Hz -/
  fPreB : ρ
  /-- `F_START`, start-marker tone in Hz -/
  fStart : ρ
  /-- `F_NIB0`, nibble tone of value 0 in Hz -/
  fNib0 : ρ
  /-- `F_STEP`, spacing of the nibble tones in Hz -/
  fStep : ρ
  /-- `EPS`, the term added to the normalising divisor -/
  eps : ρ
  /-- `COEF[0..18]`, the Goertzel coefficients -/
  coef : Vector α 19
  deriving DecidableEq, Repr

/-- Test configuration TC1 of 95_test_vectors.md section 2. DESIGN CHOICE (log entry 1): the spec gives no instance's
parameters; this is the configuration `State.reset` carries so that a run from reset can be evaluated. -/
def Config.tc1 : Params ℚ F64 where
  nSym := 64
  fs := 8000
  fPreA := 1000
  fPreB := 1250
  fStart := 1500
  fNib0 := 1750
  fStep := 125
  eps := 1 / 1000000000
  coef := #v[0x3FF6A09E667F3BCD#64, 0x3FF1C73B39AE68C8#64, 0x3FE87DE2A6AEA963#64, 0x3FD8F8B83C69A60B#64,
    0x3FC917A6BC29B42C#64, 0x0000000000000000#64, 0xBFC917A6BC29B42C#64, 0xBFD8F8B83C69A60B#64,
    0xBFE294062ED59F06#64, 0xBFE87DE2A6AEA963#64, 0xBFEE2B5D3806F63B#64, 0xBFF1C73B39AE68C8#64,
    0xBFF44CF325091DD6#64, 0xBFF6A09E667F3BCD#64, 0xBFF8BC806B151741#64, 0xBFFA9B66290EA1A3#64,
    0xBFFC38B2F180BDB1#64, 0xBFFD906BCF328D46#64, 0xBFFE9F4156C62DDA#64]

/-- The free value: the bits an implementation puts in the sign and payload of the `n`-th NaN it returns in `rsp_data`
(93_implementation_defined.md U6, "any value"; log entry 2). It has no body, so no claim can rest on its value. -/
opaque Config.nanBits : Nat → BitVec 64

end Sys2Proof
end

