-- ==== Sys2Proof/Machine/Numerics.lean ====
section
/-! DEFINITION. The number type NUM as the spec uses it: a type with the primitive operations of 00_scope.md R9. Every
rule that computes is written once over this interface; `Machine/Float64.lean` gives it for `NUMERICS = BINARY64` and
`Machine/RealMachine.lean` for `NUMERICS = REAL` (R8). -/

namespace Sys2Proof.Machine

/-- The primitives of 00_scope.md R9 over a number type `α`, and the way an exact parameter of type `ρ` becomes a NUM
(00_scope.md R10). -/
structure Numerics (ρ α : Type) where
  /-- `+0` -/
  zero : α
  /-- sum, rounded once -/
  fadd : α → α → α
  /-- difference, rounded once -/
  fsub : α → α → α
  /-- product, rounded once -/
  fmul : α → α → α
  /-- quotient, rounded once -/
  fdiv : α → α → α
  /-- greater -/
  fgt : α → α → Bool
  /-- greater or equal -/
  fge : α → α → Bool
  /-- equal -/
  feq : α → α → Bool
  /-- neither an infinity nor NaN -/
  finite : α → Bool
  /-- an unsigned integer below 65536, exactly -/
  toNum : Nat → α
  /-- the NUM value nearest a decimal literal -/
  lit : ℚ → α
  /-- the NUM value nearest an exact parameter or frequency -/
  nearest : ρ → α

/-- `KNF = lit(0.85)`, the factor on the noise floor (00_scope.md R5, R10). -/
def knf {ρ α : Type} (N : Numerics ρ α) : α := N.lit (85 / 100)

/-- `KCONF = lit(1.008)`, the confidence threshold (00_scope.md R5, R10). -/
def kconf {ρ α : Type} (N : Numerics ρ α) : α := N.lit (1008 / 1000)

end Sys2Proof.Machine
end

