-- ==== Sys2Proof/Machine/Float64.lean ====
section
/-! DEFINITION. IEEE 754 binary64 with round to nearest, ties to even (00_scope.md R8, R9), written from the exact
value: a finite pattern is an integer number of units of `2^-1074`, an operation forms the exact result as a fraction
of that unit, and one rounding takes it back to a pattern. -/

namespace Sys2Proof.Machine

/-- Sign bit, bit 63. -/
def f64Neg (x : F64) : Bool := decide (2 ^ 63 ≤ x.toNat)

/-- The exponent and fraction fields, bits 62:0, as one number. It grows with the magnitude of the value. -/
def f64Mag (x : F64) : Nat := x.toNat % 2 ^ 63

/-- The magnitude of an infinity: exponent field all ones, fraction zero. -/
def f64InfMag : Nat := 2047 * 2 ^ 52

/-- A NaN: exponent field all ones, fraction not zero. -/
def f64IsNan (x : F64) : Bool := decide (f64InfMag < f64Mag x)

/-- An infinity. -/
def f64IsInf (x : F64) : Bool := decide (f64Mag x = f64InfMag)

/-- Neither an infinity nor a NaN (00_scope.md R9). -/
def f64Finite (x : F64) : Bool := decide (f64Mag x < f64InfMag)

/-- The absolute value of a finite pattern in units of `2^-1074`: with exponent field 0 the fraction itself (zero and
the subnormals), with exponent field `e` the significand `2^52 + fraction` times `2^(e-1)`. -/
def f64MagUnits (m : Nat) : Nat :=
  if m / 2 ^ 52 = 0 then m else (2 ^ 52 + m % 2 ^ 52) * 2 ^ (m / 2 ^ 52 - 1)

/-- The number of units of `2^-1074` in 1. -/
def f64One : Nat := 2 ^ 1074

/-- The exact value of a finite pattern in units of `2^-1074`. -/
def f64Units (x : F64) : Int :=
  if f64Neg x then -(f64MagUnits (f64Mag x) : Int) else (f64MagUnits (f64Mag x) : Int)

/-- The exact value of a finite pattern. -/
def f64Value (x : F64) : ℚ := (f64Units x : ℚ) / (f64One : ℚ)

/-- `n / d` rounded to the nearest integer, ties to the even one. -/
def roundHalfEven (n d : Nat) : Nat :=
  if d < 2 * (n % d) ∨ (d = 2 * (n % d) ∧ (n / d) % 2 = 1) then n / d + 1 else n / d

/-- The magnitude nearest to `n / d` units, ties to even, an infinity beyond the largest finite value. The binade of
`n / d` gives the spacing `2^k` units; the rounded count of spacings, put beside the exponent `k`, is the pattern (a
carry out of the fraction moves into the exponent by itself). -/
def f64RoundMag (n d : Nat) : Nat :=
  let k := (n / d).log2 - 52
  min (k * 2 ^ 52 + roundHalfEven n (d * 2 ^ k)) f64InfMag

/-- A pattern from its sign and its magnitude. -/
def f64Pack (neg : Bool) (mag : Nat) : F64 := BitVec.ofNat 64 (if neg then 2 ^ 63 + mag else mag)

/-- The NaN the primitives answer with. Which NaN stands here cannot be seen: no NaN is stored (`Safety.lean`) and one
that a response would carry is replaced by a free one (`freeNan`; 93_implementation_defined.md U6). -/
def f64Nan : F64 := 0x7FF8000000000000#64

/-- An infinity of a given sign. -/
def f64Inf (neg : Bool) : F64 := f64Pack neg f64InfMag

/-- Negation: the sign bit flipped. -/
def f64Negate (x : F64) : F64 := x ^^^ 0x8000000000000000#64

/-- The pattern nearest an exact sum of units; an exact zero is `+0` unless both addends are `-0`. -/
def f64OfSum (v : Int) (bothNeg : Bool) : F64 :=
  if v = 0 then f64Pack bothNeg 0 else f64Pack (decide (v < 0)) (f64RoundMag v.natAbs 1)

/-- IEEE 754 addition (00_scope.md R8, R9). -/
def f64Add (a b : F64) : F64 :=
  if f64IsNan a || f64IsNan b then f64Nan
  else if f64IsInf a then (if f64IsInf b && (f64Neg a != f64Neg b) then f64Nan else a)
  else if f64IsInf b then b
  else f64OfSum (f64Units a + f64Units b) (f64Neg a && f64Neg b)

/-- IEEE 754 subtraction: the sum with the negated subtrahend. -/
def f64Sub (a b : F64) : F64 := f64Add a (f64Negate b)

/-- IEEE 754 multiplication. -/
def f64Mul (a b : F64) : F64 :=
  if f64IsNan a || f64IsNan b then f64Nan
  else if f64IsInf a || f64IsInf b then
    (if f64Mag a = 0 ∨ f64Mag b = 0 then f64Nan else f64Inf (f64Neg a != f64Neg b))
  else f64Pack (f64Neg a != f64Neg b)
    (f64RoundMag (f64MagUnits (f64Mag a) * f64MagUnits (f64Mag b)) f64One)

/-- IEEE 754 division. -/
def f64Div (a b : F64) : F64 :=
  if f64IsNan a || f64IsNan b then f64Nan
  else if f64IsInf a then (if f64IsInf b then f64Nan else f64Inf (f64Neg a != f64Neg b))
  else if f64IsInf b then f64Pack (f64Neg a != f64Neg b) 0
  else if f64Mag b = 0 then (if f64Mag a = 0 then f64Nan else f64Inf (f64Neg a != f64Neg b))
  else f64Pack (f64Neg a != f64Neg b)
    (f64RoundMag (f64MagUnits (f64Mag a) * f64One) (f64MagUnits (f64Mag b)))

/-- A number that orders the patterns that are not NaN as their values: the magnitude with its sign, so that `+0` and
`-0` are equal and an infinity lies beyond every finite value. -/
def f64Order (x : F64) : Int := if f64Neg x then -(f64Mag x : Int) else (f64Mag x : Int)

/-- Greater; false on a NaN (00_scope.md R9). -/
def f64Gt (a b : F64) : Bool := !f64IsNan a && !f64IsNan b && decide (f64Order b < f64Order a)

/-- Greater or equal; false on a NaN. -/
def f64Ge (a b : F64) : Bool := !f64IsNan a && !f64IsNan b && decide (f64Order b ≤ f64Order a)

/-- Equal; false on a NaN, and `+0` equals `-0`. -/
def f64Eq (a b : F64) : Bool := !f64IsNan a && !f64IsNan b && decide (f64Order a = f64Order b)

/-- `toNum(n)`, exact for `n < 65536` (00_scope.md R9). -/
def f64OfNat (n : Nat) : F64 := f64Pack false (f64RoundMag (n * f64One) 1)

/-- The finite pattern nearest to `n / d` units with a given sign: beyond the largest finite value, that value. An
infinity is nearest to no number, and no table holds one (00_scope.md R9, R10; 30_encoding.md R57; log entry 10). -/
def f64NearestUnits (neg : Bool) (n d : Nat) : F64 := f64Pack neg (min (f64RoundMag n d) (f64InfMag - 1))

/-- `lit(d)`: the NUM nearest an exact number (00_scope.md R9). -/
def f64Lit (q : ℚ) : F64 := f64NearestUnits (decide (q.num < 0)) (q.num.natAbs * f64One) q.den

/-- `NUMERICS = BINARY64` (00_scope.md R8) for exact parameters of type `ρ`, given the pattern nearest each of them. -/
def binary64Over {ρ : Type} (nearest : ρ → F64) : Numerics ρ F64 where
  zero := 0#64
  fadd := f64Add
  fsub := f64Sub
  fmul := f64Mul
  fdiv := f64Div
  fgt := f64Gt
  fge := f64Ge
  feq := f64Eq
  finite := f64Finite
  toNum := f64OfNat
  lit := f64Lit
  nearest := nearest

/-- `NUMERICS = BINARY64` with rational parameters, the machine that runs. -/
def binary64 : Numerics ℚ F64 := binary64Over f64Lit

/-- The `n`-th NaN returned in `rsp_data`: its exponent field is all ones and its fraction is not zero, and nothing
else is known of it (93_implementation_defined.md U6; log entry 2). -/
def freeNan (n : Nat) : F64 :=
  let p := Config.nanBits n ||| 0x7FF0000000000000#64
  if f64Mag p = f64InfMag then p ||| 1#64 else p

end Sys2Proof.Machine
end

