-- ==== Sys2Proof/Machine/State.lean ====
section
/-! DEFINITION. The state of one GTD instance as plain data (10_state.md R20 to R29), the command port's two streams,
and the reasons a step can stop. -/

namespace Sys2Proof.Machine

/-- The five fault codes of a command (60_exceptions.md R131). A command fault is answered in the response and recorded
in `ESR`; the machine goes on, so it is no `Fault` below. -/
inductive Cause where
  /-- `E_ILLEGAL`, code 1 (R132) -/
  | illegal
  /-- `E_INDEX`, code 2 (R133) -/
  | index
  /-- `E_NOTFULL`, code 3 (R134) -/
  | notFull
  /-- `E_NONFIN`, code 4 (R135) -/
  | nonFin
  /-- `E_CALFULL`, code 5 (R136) -/
  | calFull
  deriving DecidableEq, Repr

/-- The whole architectural state of one instance (10_state.md R20), over the number type `α`. -/
structure Block (α : Type) where
  /-- `WIN`: the samples pushed, oldest first; `WLEN` is its length (R21) -/
  win : List α
  /-- `NF[0..18]`: the noise floor (R22) -/
  nf : Vector α 19
  /-- `NFEN`: noise normalisation applied (R23) -/
  nfen : Bool
  /-- `CA[0..18]`: the calibration accumulators (R24) -/
  ca : Vector α 19
  /-- `CALCNT`: windows accumulated (R25) -/
  calcnt : BitVec 16
  /-- `CK`: the checksum accumulator (R26) -/
  ck : BitVec 16
  /-- `NIBBUF`: the pending high nibble (R27) -/
  nibbuf : BitVec 4
  /-- `NIBV`: a high nibble is pending (R27) -/
  nibv : Bool
  /-- `ESR`: sticky fault flags (R28) -/
  esr : BitVec 8
  deriving DecidableEq, Repr

/-- A response (30_encoding.md R56, R57). -/
structure Response (α : Type) where
  /-- `rsp_stat`: `FAULT` 3:0, `COND` 4, `BYTE_RDY` 5, zero 15:6, `IVAL` 31:16 -/
  stat : Word
  /-- `rsp_data` -/
  data : α
  deriving DecidableEq, Repr

/-- What the outside does to the instance, one event at a time (30_encoding.md R50, 70_reset_and_hazards.md R150). -/
inductive Input where
  /-- the host presents a command and takes its response -/
  | command (c : Command)
  /-- `rst_n` is held at 0 and released; a command in progress at that moment is abandoned -/
  | reset (inProgress : Option Command)
  deriving DecidableEq, Repr

/-- The machine: the architectural state (10_state.md R20) and four fields of the model's own. `params` stands here
because a step is a function of the state alone; no step changes it (log entry 1). `inputs` and `out` are the two sides
of the port as the host sees them (log entry 3). `nanCount` numbers the free NaN values (log entry 2). -/
structure State extends Block F64 where
  /-- the instance's parameters (00_scope.md R6): not state of the spec, and never written -/
  params : Params ℚ F64
  /-- what the host still presents, next event first -/
  inputs : List Input
  /-- the responses the host has received, the latest first (70_reset_and_hazards.md R162) -/
  out : List (Response F64)
  /-- how many free NaN values have been used -/
  nanCount : Nat
  deriving DecidableEq, Repr

/-- Reasons the machine stops with a fault: none. Every command in every state has a next state and a response
(93_implementation_defined.md part 1, last paragraph). -/
inductive Fault where
  deriving DecidableEq, Repr

/-- Reasons an instruction has no meaning. -/
inductive Refusal where
  /-- Raised by an arm of `exec` for an instruction that has no meaning in the model; no arm raises it. Safe: the model
  stops where the hardware goes on. -/
  | notModelled (mnemonic : String)
  deriving DecidableEq, Repr

/-- The reset values of 10_state.md R35, over a number type whose `+0` is `zero`. -/
def Block.reset {α : Type} (zero : α) : Block α where
  win := []
  nf := Vector.replicate 19 zero
  nfen := false
  ca := Vector.replicate 19 zero
  calcnt := 0#16
  ck := 0#16
  nibbuf := 0#4
  nibv := false
  esr := 0#8

/-- An instance with parameters `p` right after reset, with nothing presented at its port yet. -/
def State.resetWith (p : Params ℚ F64) : State where
  toBlock := Block.reset 0#64
  params := p
  inputs := []
  out := []
  nanCount := 0

/-- The machine right after reset (10_state.md R35). The parameters are TC1's (DESIGN CHOICE, log entry 1). -/
def State.reset : State := State.resetWith Config.tc1

end Sys2Proof.Machine
end

