-- ==== Sys2Proof/Machine/Ops.lean ====
section
/-! DEFINITION. The operations every command is built from: ending with a response, raising a command fault, the
register files, hardware reset, and how a command is taken from the port and its response given back. -/

namespace Sys2Proof.Machine

variable {ρ α : Type}

/-- What a command leaves: the next architectural state and the response (30_encoding.md R50). -/
abbrev Done (α : Type) := Block α × Response α

/-- The response status word from its fields (30_encoding.md R56). -/
def statWord (fault : BitVec 4) (cond byteRdy : Bool) (ival : BitVec 16) : Word :=
  ival ++ 0#10 ++ BitVec.ofBool byteRdy ++ BitVec.ofBool cond ++ fault

/-- `respond(cond, byte_rdy, ival, data)`: a command that completes (00_scope.md R14, 30_encoding.md R56). -/
def respond (b : Block α) (cond byteRdy : Bool) (ival : BitVec 16) (data : α) : Done α :=
  (b, { stat := statWord 0#4 cond byteRdy ival, data := data })

/-- The fault code (60_exceptions.md R131). -/
def Cause.code : Cause → Nat
  | .illegal => 1
  | .index => 2
  | .notFull => 3
  | .nonFin => 4
  | .calFull => 5

/-- The `ESR` bit of a fault code (10_state.md R28). -/
def Cause.esrBit (c : Cause) : BitVec 8 := BitVec.twoPow 8 c.code

/-- `raise <Fault>`: taking a command fault (60_exceptions.md R130, R138). The state keeps everything but gains the
sticky `ESR` bit, and the response holds the code with every other field zero (30_encoding.md R58). Nothing is entered
and there is nothing to return from (R139). -/
def raise (N : Numerics ρ α) (c : Cause) (b : Block α) : Done α :=
  ({ b with esr := b.esr ||| c.esrBit },
    { stat := statWord (BitVec.ofNat 4 c.code) false false 0#16, data := N.zero })

/-- A register file of nineteen entries, entry `i` given by `f i`. -/
def tabulate (f : Fin 19 → α) : Vector α 19 :=
  #v[f 0, f 1, f 2, f 3, f 4, f 5, f 6, f 7, f 8, f 9, f 10, f 11, f 12, f 13, f 14, f 15, f 16, f 17, f 18]

/-- Hardware reset (70_reset_and_hazards.md R150): the architectural state takes its reset values, no response is given
and no effect of a command in progress survives. The parameters and what the host has received stay. -/
def State.hardReset (s : State) : State := { s with toBlock := Block.reset binary64.zero }

/-- The next event is taken from the port: `cmd_word` and `cmd_data` are sampled (30_encoding.md R50). -/
def State.takeInput (s : State) : State := { s with inputs := s.inputs.tail }

/-- A command ends: its effect is the next architectural state, its response goes to the host (30_encoding.md R50). -/
def State.finish (s : State) (d : Done F64) : State := { s with toBlock := d.1, out := d.2 :: s.out }

/-- The same for a command whose numeric result is computed: where the result is a NaN, its sign and payload are
unspecified (30_encoding.md R57, 93_implementation_defined.md U6), and the response carries a free NaN. -/
def State.finishPower (s : State) (d : Done F64) : State :=
  if f64IsNan d.2.data then
    { s.finish (d.1, { d.2 with data := freeNan s.nanCount }) with nanCount := s.nanCount + 1 }
  else s.finish d

/-- A command word that matches no row of the opcode map (30_encoding.md R54, 60_exceptions.md R132). -/
def State.answerIllegal (s : State) : State := s.finish (raise binary64 .illegal s.toBlock)

/-- The command a table word stands for: the word in one 32-bit `cmd_word`, `cmd_data = +0`. -/
def tableCommand (nbits w : Nat) : Command where
  word := BitVec.ofNat 32 (w % 2 ^ nbits)
  data := 0#64

end Sys2Proof.Machine
end

