-- ==== Sys2Proof/Machine/Flags.lean ====
section
/-! DEFINITION. Flags: `WFULL` and the status view (10_state.md R21, R29, R33), and the fields of a response as the host
reads them (30_encoding.md R56). -/

namespace Sys2Proof.Machine

variable {ρ α : Type}

/-- `WLEN` (10_state.md R20, R21). -/
def Block.wlen (b : Block α) : Nat := b.win.length

/-- `WFULL`, and the predicate `full` of the commands that read the window (10_state.md R21, 40_window.md R72). -/
def Block.wfull (p : Params ρ α) (b : Block α) : Bool := decide (b.wlen = p.nSym)

/-- `STATUS` (10_state.md R29): `ESR` 15:8, `NIBBUF` 7:4, zero 3, `NIBV` 2, `NFEN` 1, `WFULL` 0. -/
def statusWord (p : Params ρ α) (b : Block α) : BitVec 16 :=
  b.esr ++ b.nibbuf ++ 0#1 ++ BitVec.ofBool b.nibv ++ BitVec.ofBool b.nfen ++ BitVec.ofBool (b.wfull p)

/-- The field `FAULT` (30_encoding.md R56). -/
def Response.fault (r : Response α) : BitVec 4 := r.stat.extractLsb' 0 4

/-- The field `COND`. -/
def Response.cond (r : Response α) : Bool := r.stat.getLsbD 4

/-- The field `BYTE_RDY`. -/
def Response.byteRdy (r : Response α) : Bool := r.stat.getLsbD 5

/-- The reserved bits 15:6. -/
def Response.reserved (r : Response α) : BitVec 10 := r.stat.extractLsb' 6 10

/-- The field `IVAL`. -/
def Response.ival (r : Response α) : BitVec 16 := r.stat.extractLsb' 16 16

end Sys2Proof.Machine
end

