-- ==== Sys2Proof/Machine/Operands.lean ====
section
/-! DEFINITION. Operands and constant tables: the tracked-frequency index, the byte and 16-bit operands, and the tables
`FT`, `COEF` and the constant `EPS` that the parameters determine (00_scope.md R10, 30_encoding.md R52, 10_state.md R30). -/

namespace Sys2Proof.Machine

variable {ρ α : Type}

/-- The tracked-frequency index, if it names one of the nineteen entries (30_encoding.md R52, 60_exceptions.md R133). -/
def trackedIndex (idx : Nat) : Option (Fin 19) := if h : idx < 19 then some ⟨idx, h⟩ else none

/-- The index of the tone of nibble `k` (43_classifier.md R96). -/
def nibbleTone (k : Fin 16) : Fin 19 := ⟨3 + k.val, by omega⟩

/-- `imm8`, zero-extended to 16 bits (30_encoding.md R52). -/
def imm8Word (imm8 : Nat) : BitVec 16 := BitVec.ofNat 16 imm8

/-- `imm16` (30_encoding.md R52). -/
def imm16Word (imm16 : Nat) : BitVec 16 := BitVec.ofNat 16 imm16

/-- The exact frequency of tracked index `i` in Hz: the two preamble tones, the start tone, then the sixteen nibble
tones `F_NIB0 + k*F_STEP` (00_scope.md R10, 10_state.md R30). -/
def exactFreq [Add ρ] [Mul ρ] [NatCast ρ] (p : Params ρ α) (i : Fin 19) : ρ :=
  match i.val with
  | 0 => p.fPreA
  | 1 => p.fPreB
  | 2 => p.fStart
  | n + 3 => p.fNib0 + (n : ρ) * p.fStep

/-- `FT[i]`, the NUM nearest the exact frequency (00_scope.md R10). -/
def ft [Add ρ] [Mul ρ] [NatCast ρ] (N : Numerics ρ α) (p : Params ρ α) (i : Fin 19) : α := N.nearest (exactFreq p i)

/-- `COEF[i]` (00_scope.md R10). -/
def coef (p : Params ρ α) (i : Fin 19) : α := p.coef[i]

/-- `EPS` as a NUM (00_scope.md R6). -/
def epsNum (N : Numerics ρ α) (p : Params ρ α) : α := N.nearest p.eps

/-- The checksum bytes as they travel, first byte first: the high byte, then the low byte (20_memory.md R42,
44_checksum.md R111). -/
def wireBytes (ck : BitVec 16) : Byte × Byte := (ck.extractLsb' 8 8, ck.extractLsb' 0 8)

/-- The 16-bit value the receiver forms from the two checksum bytes, `{first_byte, second_byte}` (20_memory.md R42). -/
def ofWireBytes (first second : Byte) : BitVec 16 := first ++ second

end Sys2Proof.Machine
end

