-- ==== Sys2Proof/Machine/Detector.lean ====
section
/-! DEFINITION. The Goertzel detector: the raw power `G`, the normalised power `Q`, and the commands GZR and GZN
(41_detector.md). -/

namespace Sys2Proof.Machine

variable {ρ α : Type}

/-- One turn of the recurrence: from `(s1, s2)` and the sample, `s0 = (x + c*s1) - s2` becomes `s1` and `s1` becomes
`s2` (41_detector.md R76). -/
def goertzelStep (N : Numerics ρ α) (c : α) (s : α × α) (x : α) : α × α :=
  (N.fsub (N.fadd x (N.fmul c s.1)) s.2, s.1)

/-- The closing formula, `(s1*s1 + s2*s2) - (c*s1)*s2` (41_detector.md R76). -/
def goertzelClose (N : Numerics ρ α) (c : α) (s : α × α) : α :=
  N.fsub (N.fadd (N.fmul s.1 s.1) (N.fmul s.2 s.2)) (N.fmul (N.fmul c s.1) s.2)

/-- `G(w, i)`, the raw power of a window at tracked frequency `i` (41_detector.md R76). -/
def rawPower (N : Numerics ρ α) (p : Params ρ α) (w : List α) (i : Fin 19) : α :=
  goertzelClose N (coef p i) (w.foldl (goertzelStep N (coef p i)) (N.zero, N.zero))

/-- The normalising divisor `NF[i]*KNF + EPS` (41_detector.md R78). -/
def divisor (N : Numerics ρ α) (p : Params ρ α) (b : Block α) (i : Fin 19) : α :=
  N.fadd (N.fmul b.nf[i] (knf N)) (epsNum N p)

/-- `Q(WIN, i)`, the normalised power: the raw power itself while `NFEN = 0` (41_detector.md R78). -/
def normPower (N : Numerics ρ α) (p : Params ρ α) (b : Block α) (i : Fin 19) : α :=
  if b.nfen then N.fdiv (rawPower N p b.win i) (divisor N p b i) else rawPower N p b.win i

/-- The two commands that return a power: index test, then window test, then the power (41_detector.md R79, R80;
60_exceptions.md R137). -/
def readPower (N : Numerics ρ α) (p : Params ρ α) (power : Fin 19 → α) (idx : Nat) (b : Block α) : Done α :=
  match trackedIndex idx with
  | none => raise N .index b
  | some i => if b.wfull p then respond b false false 0#16 (power i) else raise N .notFull b

/-- GZR, raw power at one tracked frequency (41_detector.md R79). -/
def readRaw (N : Numerics ρ α) (p : Params ρ α) (idx : Nat) (b : Block α) : Done α :=
  readPower N p (rawPower N p b.win) idx b

/-- GZN, noise-normalised power at one tracked frequency (41_detector.md R80). -/
def readNorm (N : Numerics ρ α) (p : Params ρ α) (idx : Nat) (b : Block α) : Done α :=
  readPower N p (normPower N p b) idx b

/-- GZR (41_detector.md R79). A NaN result carries a free sign and payload (93_implementation_defined.md U6). -/
def execGzr (idx : Nat) (s : State) : Host.Outcome State Fault Refusal :=
  .next (s.finishPower (readRaw binary64 s.params idx s.toBlock))

/-- GZN (41_detector.md R80). A NaN result carries a free sign and payload (93_implementation_defined.md U6). -/
def execGzn (idx : Nat) (s : State) : Host.Outcome State Fault Refusal :=
  .next (s.finishPower (readNorm binary64 s.params idx s.toBlock))

end Sys2Proof.Machine
end

