-- ==== Sys2Proof/Machine/Calibration.lean ====
section
/-! DEFINITION. Noise calibration commands CALCLR, CALACC, CALFIN, NFDIS, RDNF (42_calibration.md). -/

namespace Sys2Proof.Machine

variable {ρ α : Type}

/-- CALCLR, clear the calibration accumulators (42_calibration.md R86). -/
def calClear (N : Numerics ρ α) (b : Block α) : Done α :=
  respond { b with ca := tabulate (fun _ => N.zero), calcnt := 0#16 } false false 0#16 N.zero

/-- The nineteen raw powers of the window (42_calibration.md R87). -/
def windowPowers (N : Numerics ρ α) (p : Params ρ α) (w : List α) : Vector α 19 := tabulate (rawPower N p w)

/-- CALACC, accumulate the current window (42_calibration.md R87). The tests come in the order of 60_exceptions.md R137:
window, counter, then the nineteen powers, all computed before any is added. -/
def calAccumulate (N : Numerics ρ α) (p : Params ρ α) (b : Block α) : Done α :=
  if !b.wfull p then raise N .notFull b
  else if b.calcnt = 65535#16 then raise N .calFull b
  else
    let g := windowPowers N p b.win
    if g.toList.all N.finite then
      respond { b with ca := tabulate (fun i => N.fadd b.ca[i] g[i]), calcnt := b.calcnt + 1#16, win := [] }
        false false (b.calcnt + 1#16) N.zero
    else raise N .nonFin b

/-- CALFIN, finish calibration: average and enable, or fail and disable (42_calibration.md R88). -/
def calFinish (N : Numerics ρ α) (b : Block α) : Done α :=
  if 4 ≤ b.calcnt.toNat then
    respond { b with nf := tabulate (fun i => N.fdiv b.ca[i] (N.toNum b.calcnt.toNat)), nfen := true }
      true false b.calcnt N.zero
  else respond { b with nfen := false } false false b.calcnt N.zero

/-- NFDIS, disable noise normalisation (42_calibration.md R89). -/
def noiseDisable (N : Numerics ρ α) (b : Block α) : Done α :=
  respond { b with nfen := false } false false 0#16 N.zero

/-- RDNF, read one noise-floor register (42_calibration.md R90). -/
def readNoise (N : Numerics ρ α) (idx : Nat) (b : Block α) : Done α :=
  match trackedIndex idx with
  | none => raise N .index b
  | some i => respond b b.nfen false 0#16 b.nf[i]

/-- CALCLR (42_calibration.md R86). -/
def execCalclr (s : State) : Host.Outcome State Fault Refusal :=
  .next (s.finish (calClear binary64 s.toBlock))

/-- CALACC (42_calibration.md R87). -/
def execCalacc (s : State) : Host.Outcome State Fault Refusal :=
  .next (s.finish (calAccumulate binary64 s.params s.toBlock))

/-- CALFIN (42_calibration.md R88). -/
def execCalfin (s : State) : Host.Outcome State Fault Refusal :=
  .next (s.finish (calFinish binary64 s.toBlock))

/-- NFDIS (42_calibration.md R89). -/
def execNfdis (s : State) : Host.Outcome State Fault Refusal :=
  .next (s.finish (noiseDisable binary64 s.toBlock))

/-- RDNF (42_calibration.md R90). -/
def execRdnf (idx : Nat) (s : State) : Host.Outcome State Fault Refusal :=
  .next (s.finish (readNoise binary64 idx s.toBlock))

end Sys2Proof.Machine
end

