-- ==== Sys2Proof/Machine/Checksum.lean ====
section
/-! DEFINITION. Checksum accumulator commands CKCLR, CKADD, CKRD, CKCMP (44_checksum.md). -/

namespace Sys2Proof.Machine

variable {ρ α : Type}

/-- CKCLR, clear the checksum accumulator (44_checksum.md R112). -/
def checksumClear (N : Numerics ρ α) (b : Block α) : Done α :=
  respond { b with ck := 0#16 } false false 0#16 N.zero

/-- CKADD, add one byte modulo 65536 (44_checksum.md R113). -/
def checksumAdd (N : Numerics ρ α) (imm8 : Nat) (b : Block α) : Done α :=
  respond { b with ck := b.ck + imm8Word imm8 } false false (b.ck + imm8Word imm8) N.zero

/-- CKRD, read the checksum accumulator (44_checksum.md R114). -/
def checksumRead (N : Numerics ρ α) (b : Block α) : Done α :=
  respond b false false b.ck N.zero

/-- CKCMP, compare the accumulator with a received checksum (44_checksum.md R115). -/
def checksumCompare (N : Numerics ρ α) (imm16 : Nat) (b : Block α) : Done α :=
  respond b (decide (b.ck = imm16Word imm16)) false b.ck N.zero

/-- CKCLR (44_checksum.md R112). -/
def execCkclr (s : State) : Host.Outcome State Fault Refusal :=
  .next (s.finish (checksumClear binary64 s.toBlock))

/-- CKADD (44_checksum.md R113). -/
def execCkadd (imm8 : Nat) (s : State) : Host.Outcome State Fault Refusal :=
  .next (s.finish (checksumAdd binary64 imm8 s.toBlock))

/-- CKRD (44_checksum.md R114). -/
def execCkrd (s : State) : Host.Outcome State Fault Refusal :=
  .next (s.finish (checksumRead binary64 s.toBlock))

/-- CKCMP (44_checksum.md R115). -/
def execCkcmp (imm16 : Nat) (s : State) : Host.Outcome State Fault Refusal :=
  .next (s.finish (checksumCompare binary64 imm16 s.toBlock))

end Sys2Proof.Machine
end

