-- ==== Sys2Proof/Machine/Classifier.lean ====
section
/-! DEFINITION. The FSK symbol classifier: `CLASSIFY`, `ASSEMBLE`, and the commands CLS, NCLR, RDFT (43_classifier.md). -/

namespace Sys2Proof.Machine

variable {ρ α : Type}

/-- The first index of the maximum of sixteen values: `bi` moves to `k` when `q[k]` is greater, `k = 1..15` upward
(43_classifier.md R97). -/
def firstMax (N : Numerics ρ α) (q : Vector α 16) : Fin 16 :=
  (List.finRange 16).tail.foldl (fun bi k => if N.fgt q[k] q[bi] then k else bi) 0

/-- The greater of two values. -/
def greater (N : Numerics ρ α) (a b : α) : α := if N.fgt b a then b else a

/-- The maximum of the fifteen values at the indices other than `bi` (43_classifier.md R97). -/
def maxOthers (N : Numerics ρ α) (q : Vector α 16) (bi : Fin 16) : α :=
  match q.toList.eraseIdx bi.val with
  | [] => N.zero
  | x :: xs => xs.foldl (greater N) x

/-- `CLASSIFY(q)`: the nibble, or none for an invalid symbol (43_classifier.md R97). -/
def classify (N : Numerics ρ α) (q : Vector α 16) : Option (Fin 16) :=
  if !q.toList.all N.finite then none
  else
    let bi := firstMax N q
    let best := q[bi]
    let second := maxOthers N q bi
    if N.fgt second N.zero then
      if N.fge (N.fdiv best second) (kconf N) then some bi else none
    else if N.feq second N.zero && N.fgt best N.zero then some bi
    else none

/-- `ASSEMBLE(k)`: the first nibble of a pair waits, the second completes a byte, high nibble first
(43_classifier.md R99). -/
def assemble (k : BitVec 4) (b : Block α) : Block α × Option Byte :=
  if b.nibv then ({ b with nibbuf := 0#4, nibv := false }, some (b.nibbuf ++ k))
  else ({ b with nibbuf := k, nibv := true }, none)

/-- The sixteen normalised powers `q[k] = Q(WIN, 3 + k)` (43_classifier.md R100). -/
def nibblePowers (N : Numerics ρ α) (p : Params ρ α) (b : Block α) : Vector α 16 :=
  let q := fun k : Fin 16 => normPower N p b (nibbleTone k)
  #v[q 0, q 1, q 2, q 3, q 4, q 5, q 6, q 7, q 8, q 9, q 10, q 11, q 12, q 13, q 14, q 15]

/-- CLS, classify the symbol in the window (43_classifier.md R100): `IVAL` is `{0b0000, nibble, byte}`, the byte zero
until it is complete. -/
def classifySymbol (N : Numerics ρ α) (p : Params ρ α) (b : Block α) : Done α :=
  if !b.wfull p then raise N .notFull b
  else
    match classify N (nibblePowers N p b) with
    | none => respond b false false 0#16 N.zero
    | some k =>
      let k4 := BitVec.ofNat 4 k.val
      match assemble k4 b with
      | (b', none) => respond b' true false (0#4 ++ k4 ++ 0#8) N.zero
      | (b', some byte) => respond b' true true (0#4 ++ k4 ++ byte) N.zero

/-- NCLR, drop the pending nibble (43_classifier.md R101). -/
def nibbleClear (N : Numerics ρ α) (b : Block α) : Done α :=
  respond { b with nibbuf := 0#4, nibv := false } false false 0#16 N.zero

/-- RDFT, read one entry of the frequency table (43_classifier.md R102). -/
def readFreq [Add ρ] [Mul ρ] [NatCast ρ] (N : Numerics ρ α) (p : Params ρ α) (idx : Nat) (b : Block α) : Done α :=
  match trackedIndex idx with
  | none => raise N .index b
  | some i => respond b false false 0#16 (ft N p i)

/-- CLS (43_classifier.md R100). -/
def execCls (s : State) : Host.Outcome State Fault Refusal :=
  .next (s.finish (classifySymbol binary64 s.params s.toBlock))

/-- NCLR (43_classifier.md R101). -/
def execNclr (s : State) : Host.Outcome State Fault Refusal :=
  .next (s.finish (nibbleClear binary64 s.toBlock))

/-- RDFT (43_classifier.md R102). -/
def execRdft (idx : Nat) (s : State) : Host.Outcome State Fault Refusal :=
  .next (s.finish (readFreq binary64 s.params idx s.toBlock))

end Sys2Proof.Machine
end

