-- ==== Sys2Proof/Machine/System.lean ====
section
/-! DEFINITION. System commands NOP, SRST, DCLR, RDST (45_system.md). -/

namespace Sys2Proof.Machine

variable {ρ α : Type}

/-- NOP (45_system.md R120). -/
def noOperation (N : Numerics ρ α) (b : Block α) : Done α := respond b false false 0#16 N.zero

/-- SRST, soft reset: every element takes its reset value (45_system.md R121, 10_state.md R35). -/
def softReset (N : Numerics ρ α) (_ : Block α) : Done α :=
  respond (Block.reset N.zero) false false 0#16 N.zero

/-- DCLR, clear the decoder-side registers (45_system.md R122). -/
def decoderClear (N : Numerics ρ α) (b : Block α) : Done α :=
  respond { b with ck := 0#16, nibbuf := 0#4, nibv := false } false false 0#16 N.zero

/-- RDST, read the status word (45_system.md R123). -/
def readStatus (N : Numerics ρ α) (p : Params ρ α) (b : Block α) : Done α :=
  respond b false false (statusWord p b) N.zero

/-- NOP (45_system.md R120). -/
def execNop (s : State) : Host.Outcome State Fault Refusal :=
  .next (s.finish (noOperation binary64 s.toBlock))

/-- SRST (45_system.md R121). -/
def execSrst (s : State) : Host.Outcome State Fault Refusal :=
  .next (s.finish (softReset binary64 s.toBlock))

/-- DCLR (45_system.md R122). -/
def execDclr (s : State) : Host.Outcome State Fault Refusal :=
  .next (s.finish (decoderClear binary64 s.toBlock))

/-- RDST (45_system.md R123). -/
def execRdst (s : State) : Host.Outcome State Fault Refusal :=
  .next (s.finish (readStatus binary64 s.params s.toBlock))

end Sys2Proof.Machine
end

