-- ==== Sys2Proof/Machine/Window.lean ====
section
/-! DEFINITION. Window commands WCLR and WPUSH (40_window.md). Each command is one function over the primitives of NUM;
`exec…` is its meaning in the binary64 machine. -/

namespace Sys2Proof.Machine

variable {ρ α : Type}

/-- WCLR, empty the window (40_window.md R70). -/
def windowClear (N : Numerics ρ α) (b : Block α) : Done α :=
  respond { b with win := [] } false false 0#16 N.zero

/-- The window after `x` is appended: the oldest sample leaves when it would hold more than `N_SYM` (40_window.md R71). -/
def slide (p : Params ρ α) (w : List α) (x : α) : List α :=
  if p.nSym < (w ++ [x]).length then (w ++ [x]).drop 1 else w ++ [x]

/-- WPUSH, append one sample; slide when full (40_window.md R71). -/
def windowPush (N : Numerics ρ α) (p : Params ρ α) (x : α) (b : Block α) : Done α :=
  if N.finite x then
    let b' := { b with win := slide p b.win x }
    respond b' (b'.wfull p) false 0#16 N.zero
  else raise N .nonFin b

/-- WCLR (40_window.md R70). -/
def execWclr (s : State) : Host.Outcome State Fault Refusal :=
  .next (s.finish (windowClear binary64 s.toBlock))

/-- WPUSH (40_window.md R71). -/
def execWpush (x : F64) (s : State) : Host.Outcome State Fault Refusal :=
  .next (s.finish (windowPush binary64 s.params x s.toBlock))

end Sys2Proof.Machine
end

