-- ==== Sys2Proof/Machine/Dispatch.lean ====
section
/-! DEFINITION. The meaning of each command, one arm per constructor of Instr (30_encoding.md R53). -/

namespace Sys2Proof.Machine

def exec (i : Instr) (s : State) : Host.Outcome State Fault Refusal :=
  match i with
  | .nop => Sys2Proof.Machine.execNop s
  | .srst => Sys2Proof.Machine.execSrst s
  | .dclr => Sys2Proof.Machine.execDclr s
  | .rdst => Sys2Proof.Machine.execRdst s
  | .wclr => Sys2Proof.Machine.execWclr s
  | .wpush x => Sys2Proof.Machine.execWpush x s
  | .gzr idx => Sys2Proof.Machine.execGzr idx s
  | .gzn idx => Sys2Proof.Machine.execGzn idx s
  | .calclr => Sys2Proof.Machine.execCalclr s
  | .calacc => Sys2Proof.Machine.execCalacc s
  | .calfin => Sys2Proof.Machine.execCalfin s
  | .nfdis => Sys2Proof.Machine.execNfdis s
  | .rdnf idx => Sys2Proof.Machine.execRdnf idx s
  | .cls => Sys2Proof.Machine.execCls s
  | .nclr => Sys2Proof.Machine.execNclr s
  | .rdft idx => Sys2Proof.Machine.execRdft idx s
  | .ckclr => Sys2Proof.Machine.execCkclr s
  | .ckadd imm8 => Sys2Proof.Machine.execCkadd imm8 s
  | .ckrd => Sys2Proof.Machine.execCkrd s
  | .ckcmp imm16 => Sys2Proof.Machine.execCkcmp imm16 s

end Sys2Proof.Machine
end

