-- ==== Sys2Proof/Machine/Step.lean ====
section
/-! DEFINITION. One step of the machine: one event at the port (00_scope.md R11, 30_encoding.md R50). -/

namespace Sys2Proof.Machine

/-- One event. With nothing presented the instance is idle and holds its state (60_exceptions.md R148). A hardware reset
gives the reset state without a response (70_reset_and_hazards.md R150). A command is decoded and executed as one
atomic transition; an illegal word ends with `E_ILLEGAL` (30_encoding.md R54). -/
def step (s : State) : Host.Outcome State Fault Refusal :=
  match s.inputs with
  | [] => .next s
  | .reset _ :: _ => .next s.takeInput.hardReset
  | .command c :: _ =>
    match decode c.word c.data with
    | .ok i => exec i s.takeInput
    | .error _ => .next s.takeInput.answerIllegal

/-- The table word presented as the next command, ahead of whatever else the host presents (log entry 3). -/
def State.withFetchWord (s : State) (nbits w : Nat) : State :=
  { s with inputs := .command (tableCommand nbits w) :: s.inputs }

end Sys2Proof.Machine
end

