-- ==== Sys2Proof/Machine/Assembler.lean ====
section
/-! DEFINITION. The textual form of commands and the pseudo-instructions (30_encoding.md R60, R61): what a tool makes of
one line of a command sequence. No step of the machine reads text. -/

namespace Sys2Proof.Machine

/-- Why a line is refused. -/
inductive AsmError where
  /-- no mnemonic or pseudo-instruction of this name takes this many operands -/
  | unknownForm
  /-- an operand is not written as R60 asks -/
  | badOperand
  /-- an operand is out of range for its field, or a window is not `N_SYM` samples -/
  | outOfRange
  deriving DecidableEq, Repr

/-- The pseudo-instructions of 30_encoding.md R61. -/
inductive Pseudo where
  | tone (k : Nat)
  | txbyte (b : Nat)
  | wload (xs : List F64)
  | calwin (xs : List F64)
  | cksum (bytes : List Nat)
  | ckcmpb (hi lo : Nat)
  deriving DecidableEq, Repr

/-- The operand column of 30_encoding.md R61, for an instance whose windows hold `nSym` samples. -/
def Pseudo.wellFormed (nSym : Nat) : Pseudo → Bool
  | .tone k => decide (k ≤ 15)
  | .txbyte b => decide (b ≤ 255)
  | .wload xs => decide (xs.length = nSym)
  | .calwin xs => decide (xs.length = nSym)
  | .cksum bytes => decide (bytes ≠ []) && bytes.all (fun b => decide (b ≤ 255))
  | .ckcmpb hi lo => decide (hi ≤ 255) && decide (lo ≤ 255)

/-- The expansion column of 30_encoding.md R61. -/
def Pseudo.expand : Pseudo → List Instr
  | .tone k => [.rdft (3 + k)]
  | .txbyte b => [.rdft (3 + b / 16), .rdft (3 + b % 16)]
  | .wload xs => .wclr :: xs.map .wpush
  | .calwin xs => (.wclr :: xs.map .wpush) ++ [.calacc]
  | .cksum bytes => .ckclr :: bytes.map .ckadd
  | .ckcmpb hi lo => [.ckcmp (hi * 256 + lo)]

/-- The value of a hexadecimal digit. -/
def digitValue (c : Char) : Option Nat :=
  if '0' ≤ c ∧ c ≤ '9' then some (c.toNat - '0'.toNat)
  else if 'a' ≤ c ∧ c ≤ 'f' then some (c.toNat - 'a'.toNat + 10)
  else if 'A' ≤ c ∧ c ≤ 'F' then some (c.toNat - 'A'.toNat + 10)
  else none

/-- One more digit of a numeral. -/
def addDigit (base : Nat) (acc : Option Nat) (c : Char) : Option Nat :=
  match acc, digitValue c with
  | some n, some d => if d < base then some (n * base + d) else none
  | _, _ => none

/-- A numeral of at least one digit. -/
def numeral (base : Nat) (cs : List Char) : Option Nat :=
  if cs = [] then none else cs.foldl (addDigit base) (some 0)

/-- An unsigned integer, decimal or hexadecimal with the prefix `0x` (30_encoding.md R60). -/
def unsigned : List Char → Option Nat
  | '0' :: 'x' :: ds => numeral 16 ds
  | ds => numeral 10 ds

/-- The exponent of a real literal: empty is 0, else `e` and a decimal integer with an optional sign. -/
def exponent : List Char → Option Int
  | [] => some 0
  | _ :: '-' :: ds => (numeral 10 ds).map (fun n => -(n : Int))
  | _ :: '+' :: ds => (numeral 10 ds).map (fun n => (n : Int))
  | _ :: ds => (numeral 10 ds).map (fun n => (n : Int))

/-- Whether a character begins the exponent of a real literal. -/
def isExpMark (c : Char) : Bool := c == 'e' || c == 'E'

/-- An unsigned decimal real literal, exactly: digits, an optional fraction, an optional exponent. -/
def decimal (cs : List Char) : Option ℚ :=
  let body := cs.takeWhile (fun c => !isExpMark c)
  let whole := body.takeWhile (· != '.')
  let point := body.dropWhile (· != '.')
  let frac := point.drop 1
  match numeral 10 whole, numeral 10 (whole ++ frac), exponent (cs.dropWhile (fun c => !isExpMark c)) with
  | some _, some n, some e =>
    if point ≠ [] ∧ frac = [] then none
    else some (mkRat ((n : Int) * 10 ^ e.toNat) (10 ^ (frac.length + (-e).toNat)))
  | _, _, _ => none

/-- The numeric operand of WPUSH: `bits:0x` and sixteen hexadecimal digits, or a decimal real literal, meaning `lit()`
of it (30_encoding.md R60). -/
def numOperand (cs : List Char) : Option F64 :=
  if cs.take 7 = "bits:0x".toList then
    if cs.length = 23 then (numeral 16 (cs.drop 7)).map (BitVec.ofNat 64) else none
  else
    match cs with
    | '-' :: ds => (decimal ds).map (fun q => f64Lit (-q))
    | ds => (decimal ds).map f64Lit

/-- All operands of a list, if each is well written. -/
def operands {β : Type} (read : List Char → Option β) : List (List Char) → Option (List β)
  | [] => some []
  | o :: os =>
    match read o, operands read os with
    | some x, some xs => some (x :: xs)
    | _, _ => none

/-- A command, refused if an operand is out of range for its field (30_encoding.md R60). -/
def checkedInstr (i : Option Instr) : Except AsmError (List Instr) :=
  match i with
  | none => .error .badOperand
  | some i => if i.wellFormed then .ok [i] else .error .outOfRange

/-- A pseudo-instruction, expanded (30_encoding.md R61). -/
def checkedPseudo (nSym : Nat) (p : Option Pseudo) : Except AsmError (List Instr) :=
  match p with
  | none => .error .badOperand
  | some p => if p.wellFormed nSym then .ok p.expand else .error .outOfRange

/-- A mnemonic with its operands (30_encoding.md R60, R61).
DESIGN CHOICE (log entry 9), unsafe for claims about text: R61 does not say how its integers are written. The `k` of TONE,
the `b` of TXBYTE and the bytes of CKSUM and CKCMPB are read as R60 reads an `idx`, `imm8` or `imm16`: decimal, or
hexadecimal with the prefix `0x`. -/
def assembleForm (nSym : Nat) (name : String) (ops : List (List Char)) : Except AsmError (List Instr) :=
  match name, ops with
  | "NOP", [] => checkedInstr (some .nop)
  | "SRST", [] => checkedInstr (some .srst)
  | "DCLR", [] => checkedInstr (some .dclr)
  | "RDST", [] => checkedInstr (some .rdst)
  | "WCLR", [] => checkedInstr (some .wclr)
  | "WPUSH", [o] => checkedInstr ((numOperand o).map .wpush)
  | "GZR", [o] => checkedInstr ((unsigned o).map .gzr)
  | "GZN", [o] => checkedInstr ((unsigned o).map .gzn)
  | "CALCLR", [] => checkedInstr (some .calclr)
  | "CALACC", [] => checkedInstr (some .calacc)
  | "CALFIN", [] => checkedInstr (some .calfin)
  | "NFDIS", [] => checkedInstr (some .nfdis)
  | "RDNF", [o] => checkedInstr ((unsigned o).map .rdnf)
  | "CLS", [] => checkedInstr (some .cls)
  | "NCLR", [] => checkedInstr (some .nclr)
  | "RDFT", [o] => checkedInstr ((unsigned o).map .rdft)
  | "CKCLR", [] => checkedInstr (some .ckclr)
  | "CKADD", [o] => checkedInstr ((unsigned o).map .ckadd)
  | "CKRD", [] => checkedInstr (some .ckrd)
  | "CKCMP", [o] => checkedInstr ((unsigned o).map .ckcmp)
  | "TONE", [o] => checkedPseudo nSym ((unsigned o).map .tone)
  | "TXBYTE", [o] => checkedPseudo nSym ((unsigned o).map .txbyte)
  | "WLOAD", os => checkedPseudo nSym ((operands numOperand os).map .wload)
  | "CALWIN", os => checkedPseudo nSym ((operands numOperand os).map .calwin)
  | "CKSUM", os => checkedPseudo nSym ((operands unsigned os).map .cksum)
  | "CKCMPB", [hi, lo] =>
    checkedPseudo nSym ((operands unsigned [hi, lo]).map (fun bs => .ckcmpb (bs.getD 0 0) (bs.getD 1 0)))
  | _, _ => .error .unknownForm

/-- A text without the spaces around it. -/
def trimSpaces (cs : List Char) : List Char :=
  ((cs.dropWhile (· == ' ')).reverse.dropWhile (· == ' ')).reverse

/-- The pieces of a text between commas, from the characters read so far in the current piece. -/
def commaPieces (piece : List Char) : List Char → List (List Char)
  | [] => [trimSpaces piece]
  | ',' :: cs => trimSpaces piece :: commaPieces [] cs
  | c :: cs => commaPieces (piece ++ [c]) cs

/-- One line: an optional command and an optional comment that `;` starts (30_encoding.md R60). -/
def assembleLine (nSym : Nat) (line : String) : Except AsmError (List Instr) :=
  let code := trimSpaces (line.toList.takeWhile (· != ';'))
  let rest := trimSpaces (code.dropWhile (· != ' '))
  if code = [] then .ok []
  else assembleForm nSym (String.ofList (code.takeWhile (· != ' '))) (if rest = [] then [] else commaPieces [] rest)

end Sys2Proof.Machine
end

