-- ==== Sys2Proof/Machine/BlockStep.lean ====
section
/-! DEFINITION. The function `step : State x Command -> State x Response` of 30_encoding.md R50 over any number type,
so that one text gives the command set under `NUMERICS = BINARY64` and under `NUMERICS = REAL` (00_scope.md R8). -/

namespace Sys2Proof.Machine

variable {ρ α : Type}

/-- One command on the architectural state. `x` is the number on `cmd_data`; only WPUSH reads it (30_encoding.md R52), in
place of the binary64 pattern its constructor carries. -/
def blockStep [Add ρ] [Mul ρ] [NatCast ρ] (N : Numerics ρ α) (p : Params ρ α) (i : Instr) (x : α) (b : Block α) : Done α :=
  match i with
  | .nop => noOperation N b
  | .srst => softReset N b
  | .dclr => decoderClear N b
  | .rdst => readStatus N p b
  | .wclr => windowClear N b
  | .wpush _ => windowPush N p x b
  | .gzr idx => readRaw N p idx b
  | .gzn idx => readNorm N p idx b
  | .calclr => calClear N b
  | .calacc => calAccumulate N p b
  | .calfin => calFinish N b
  | .nfdis => noiseDisable N b
  | .rdnf idx => readNoise N idx b
  | .cls => classifySymbol N p b
  | .nclr => nibbleClear N b
  | .rdft idx => readFreq N p idx b
  | .ckclr => checksumClear N b
  | .ckadd imm8 => checksumAdd N imm8 b
  | .ckrd => checksumRead N b
  | .ckcmp imm16 => checksumCompare N imm16 b

/-- One accepted command word with its data operand (30_encoding.md R50, R54). -/
def commandStep [Add ρ] [Mul ρ] [NatCast ρ] (N : Numerics ρ α) (p : Params ρ α) (w : Word) (x : α) (b : Block α) : Done α :=
  match decode w 0#64 with
  | .ok i => blockStep N p i x b
  | .error _ => raise N .illegal b

end Sys2Proof.Machine
end

