-- ==== Sys2Proof/Machine/Parameters.lean ====
section
/-! DEFINITION. Exact parameters: the constraints on them (00_scope.md R6, R7), parameters that are any real numbers, and
the binary64 pattern nearest a real number (R8, R9, R10). No real number can be computed, so the machine that runs takes
rational parameters; the command function takes either (`commandStep`). -/

namespace Sys2Proof

open Machine

/-- The constraints of 00_scope.md R6 and R7 on the exact parameters: `64 <= N_SYM <= 65535`, `FS > 0`, `F_STEP != 0`,
`EPS > 0`, and the nineteen frequencies pairwise distinct and strictly between 0 and `FS/2`. -/
def Params.wellFormed {ρ α : Type} [Field ρ] [LinearOrder ρ] (p : Params ρ α) : Prop :=
  (64 ≤ p.nSym ∧ p.nSym ≤ 65535 ∧ 0 < p.fs ∧ p.fStep ≠ 0 ∧ 0 < p.eps) ∧
  (∀ i : Fin 19, 0 < exactFreq p i ∧ exactFreq p i < p.fs / 2) ∧
  ∀ i j : Fin 19, exactFreq p i = exactFreq p j → i = j

/-- Rational parameters as real ones. -/
noncomputable def Params.toReal {α : Type} (p : Params ℚ α) : Params ℝ α where
  nSym := p.nSym
  fs := p.fs
  fPreA := p.fPreA
  fPreB := p.fPreB
  fStart := p.fStart
  fNib0 := p.fNib0
  fStep := p.fStep
  eps := p.eps
  coef := p.coef

end Sys2Proof

namespace Sys2Proof.Machine

/-- The exact value of a finite pattern, as a real number. -/
noncomputable def f64Real (x : F64) : ℝ := (f64Value x : ℝ)

/-- A real number on the grid of `2^-1077`: itself where it is a multiple of `2^-1076`, else the point halfway between its
neighbours there, counted in units of `2^-1077`. Every binary64 value and every point halfway between two of them is a
multiple of `2^-1075`, so both round to the same pattern. -/
noncomputable def stickyUnits (y : ℝ) : Nat :=
  2 * ⌊y * 2 ^ 1076⌋₊ + (if (⌊y * 2 ^ 1076⌋₊ : ℝ) = y * 2 ^ 1076 then 0 else 1)

/-- The NUM nearest a real number, ties to even; an exact zero is `+0` (00_scope.md R8, R10). -/
noncomputable def f64Nearest (x : ℝ) : F64 := f64NearestUnits (decide (x < 0)) (stickyUnits |x|) 8

/-- `NUMERICS = BINARY64` with parameters that are any real numbers (00_scope.md R6, R8). -/
noncomputable def binary64Real : Numerics ℝ F64 := binary64Over f64Nearest

/-- The coefficient table is the one of 00_scope.md R10: `COEF[i]` is the NUM nearest `2*cos(2*pi*FT[i]/FS)`. A
hypothesis on the parameters, never used by a step. -/
def CoefNearest (p : Params ℝ F64) : Prop :=
  ∀ i : Fin 19, coef p i = f64Nearest (2 * Real.cos (2 * Real.pi * f64Real (ft binary64Real p i) / p.fs))

end Sys2Proof.Machine
end

