-- ==== Sys2Proof/Machine/RealMachine.lean ====
section
/-! DEFINITION. The command set under `NUMERICS = REAL` (00_scope.md R8): NUM is the real numbers and every operation is
exact. It is the setting of the spec's exact properties (41_detector.md R77, R82; 43_classifier.md R98); real numbers
cannot be computed, so the machine that runs is the binary64 one. -/

namespace Sys2Proof.Machine

/-- `NUMERICS = REAL` (00_scope.md R8, R9). -/
noncomputable def reals : Numerics ℝ ℝ where
  zero := 0
  fadd a b := a + b
  fsub a b := a - b
  fmul a b := a * b
  fdiv a b := a / b
  fgt a b := decide (b < a)
  fge a b := decide (b ≤ a)
  feq a b := decide (a = b)
  finite _ := true
  toNum n := (n : ℝ)
  lit q := (q : ℝ)
  nearest x := x

/-- The angular frequency of tracked index `i`, `2*pi*FT[i]/FS` (41_detector.md R77). -/
noncomputable def omega (p : Params ℝ ℝ) (i : Fin 19) : ℝ := 2 * Real.pi * ft reals p i / p.fs

/-- The coefficient table is exact: `COEF[i] = 2*cos(2*pi*FT[i]/FS)` (00_scope.md R10 under `REAL`). -/
def CoefExact (p : Params ℝ ℝ) : Prop := ∀ i : Fin 19, coef p i = 2 * Real.cos (omega p i)

/-- The parameters of an instance with the exact coefficient table. -/
noncomputable def exactParams {α : Type} (p : Params ℝ α) : Params ℝ ℝ where
  nSym := p.nSym
  fs := p.fs
  fPreA := p.fPreA
  fPreB := p.fPreB
  fStart := p.fStart
  fNib0 := p.fNib0
  fStep := p.fStep
  eps := p.eps
  coef := tabulate (fun i => 2 * Real.cos (2 * Real.pi * exactFreq p i / p.fs))

/-- The squared magnitude of the discrete-time Fourier transform of a window at angular frequency `w`
(41_detector.md R77). -/
noncomputable def dftPower (win : List ℝ) (w : ℝ) : ℝ :=
  Complex.normSq ((win.zipIdx.map (fun xn => (xn.1 : ℂ) * Complex.exp (-Complex.I * (w : ℂ) * (xn.2 : ℂ)))).sum)

/-- A window holding a pure sinusoid of amplitude `a` and phase `phi` at tracked index `i` (41_detector.md R82). -/
noncomputable def pureTone (p : Params ℝ ℝ) (i : Fin 19) (a phi : ℝ) : List ℝ :=
  (List.range p.nSym).map (fun n => a * Real.cos (omega p i * n + phi))

/-- Pure-tone selectivity, a requirement on the parameter set and not a consequence of the recurrence
(00_scope.md R7, 41_detector.md R82): over a sinusoid at one tracked frequency, the power there is strictly the highest. -/
def Selective (p : Params ℝ ℝ) : Prop :=
  ∀ (i j : Fin 19) (a phi : ℝ), a ≠ 0 → j ≠ i →
    rawPower reals p (pureTone p i a phi) j < rawPower reals p (pureTone p i a phi) i

end Sys2Proof.Machine
end

