-- ==== Sys2Proof/Safety.lean ====
section
/-! DEFINITION. What a legal state is, in the terms the claims use, and how a claim says what a command answers. -/

namespace Sys2Proof.Machine

/-- The architectural state is one the rules allow: at most `N_SYM` samples (10_state.md R21), no pending nibble means a
zero nibble buffer (R27), the reserved `ESR` bits 0, 6 and 7 are zero (R28), every sample is finite (40_window.md R71),
and no accumulator and no noise floor is a NaN (60_exceptions.md R135: no bad window reaches them). -/
structure Legal (p : Params ℚ F64) (b : Block F64) : Prop where
  window_bounded : b.win.length ≤ p.nSym
  nibble_canonical : b.nibv = false → b.nibbuf = 0#4
  esr_reserved : b.esr &&& 0xC1#8 = 0#8
  samples_finite : ∀ x ∈ b.win, f64Finite x = true
  accumulators_numbers : ∀ i : Fin 19, f64IsNan b.ca[i] = false
  noise_numbers : ∀ i : Fin 19, f64IsNan b.nf[i] = false

/-- A completed command's response: no fault, the reserved bits zero, and the given fields (30_encoding.md R56). -/
def Reports (r : Response F64) (cond byteRdy : Bool) (ival : BitVec 16) (data : F64) : Prop :=
  r.fault = 0#4 ∧ r.cond = cond ∧ r.byteRdy = byteRdy ∧ r.reserved = 0#10 ∧ r.ival = ival ∧ r.data = data

/-- A faulting command's response: the code as a 32-bit number and `+0` (30_encoding.md R58). -/
def ReportsFault (r : Response F64) (code : Nat) : Prop :=
  r.stat = BitVec.ofNat 32 code ∧ r.data = 0#64

/-- A response that carries a computed power: the power itself, or any NaN where the power is a NaN (30_encoding.md R57,
93_implementation_defined.md U6). -/
def ReportsPower (r : Response F64) (power : F64) : Prop :=
  r.fault = 0#4 ∧ r.cond = false ∧ r.byteRdy = false ∧ r.reserved = 0#10 ∧ r.ival = 0#16 ∧
    (if f64IsNan power then f64IsNan r.data = true else r.data = power)

/-- The code a command must report, by the tests of 60_exceptions.md R137 in their order (0 when none fails). -/
def expectedFault (p : Params ℚ F64) (b : Block F64) : Except DecodeError Instr → Nat
  | .error _ => 1
  | .ok i =>
    match i with
    | .gzr idx | .gzn idx => if 18 < idx then 2 else if b.win.length ≠ p.nSym then 3 else 0
    | .rdnf idx | .rdft idx => if 18 < idx then 2 else 0
    | .cls => if b.win.length ≠ p.nSym then 3 else 0
    | .calacc =>
      if b.win.length ≠ p.nSym then 3
      else if b.calcnt.toNat = 65535 then 5
      else if ∀ i : Fin 19, f64Finite (rawPower binary64 p b.win i) = true then 0
      else 4
    | .wpush x => if f64Finite x then 0 else 4
    | .nop | .srst | .dclr | .rdst | .wclr | .calclr | .calfin | .nfdis | .nclr | .ckclr | .ckadd _ | .ckrd
    | .ckcmp _ => 0

/-- `y` is the finite binary64 value nearest the number `x`, on a tie the one with an even last bit (00_scope.md R8 to
R10). -/
def NearestFinite (x : ℝ) (y : F64) : Prop :=
  f64Finite y = true ∧ ∀ z : F64, f64Finite z = true →
    |f64Real y - x| ≤ |f64Real z - x| ∧
    (f64Real z ≠ f64Real y → |f64Real z - x| = |f64Real y - x| → f64Mag y % 2 = 0)

/-- `y` is the exact result `x` of an operation rounded to binary64: the nearest finite value; from halfway between the
largest finite value and `2^1024` on, the infinity of its sign (00_scope.md R8). -/
def RoundsTo (x : ℝ) (y : F64) : Prop :=
  (|x| < 2 ^ 1024 - 2 ^ 970 → NearestFinite x y) ∧ (2 ^ 1024 - 2 ^ 970 ≤ |x| → y = f64Inf (decide (x < 0)))

/-- The value of a pattern that is not a NaN, an infinity being beyond every number (00_scope.md R8). -/
noncomputable def f64Extended (x : F64) : EReal :=
  if f64IsInf x then (if f64Neg x then ⊥ else ⊤) else ((f64Real x : ℝ) : EReal)

/-- `z` is the zero of a sum or difference whose exact result is zero: `-0` when both addends are `-0`, else `+0`. -/
def ZeroSum (x : ℝ) (bothNeg : Bool) (y : F64) : Prop := x = 0 → y = f64Pack bothNeg 0

/-- The four operations on two finite operands: the exact result rounded once, with the sign of a zero; a quotient by zero
is an infinity, or a NaN for zero by zero (00_scope.md R8, R9). -/
def FiniteArithmetic (a b : F64) : Prop :=
  RoundsTo (f64Real a + f64Real b) (f64Add a b) ∧
  ZeroSum (f64Real a + f64Real b) (f64Neg a && f64Neg b) (f64Add a b) ∧
  RoundsTo (f64Real a - f64Real b) (f64Sub a b) ∧
  ZeroSum (f64Real a - f64Real b) (f64Neg a && !f64Neg b) (f64Sub a b) ∧
  RoundsTo (f64Real a * f64Real b) (f64Mul a b) ∧ f64Neg (f64Mul a b) = (f64Neg a != f64Neg b) ∧
  (f64Real b ≠ 0 → RoundsTo (f64Real a / f64Real b) (f64Div a b) ∧ f64Neg (f64Div a b) = (f64Neg a != f64Neg b)) ∧
  (f64Real b = 0 → f64Real a ≠ 0 → f64Div a b = f64Inf (f64Neg a != f64Neg b)) ∧
  (f64Real b = 0 → f64Real a = 0 → f64IsNan (f64Div a b) = true)

/-- The four operations when an operand is an infinity and neither is a NaN (00_scope.md R8, R9). -/
def InfiniteArithmetic (a b : F64) : Prop :=
  (f64IsInf a = true → f64Finite b = true →
    f64Add a b = a ∧ f64Sub a b = a ∧ f64Div a b = f64Inf (f64Neg a != f64Neg b) ∧
    (f64Real b ≠ 0 → f64Mul a b = f64Inf (f64Neg a != f64Neg b)) ∧
    (f64Real b = 0 → f64IsNan (f64Mul a b) = true)) ∧
  (f64Finite a = true → f64IsInf b = true →
    f64Add a b = b ∧ f64Sub a b = f64Inf (!f64Neg b) ∧ f64Div a b = f64Pack (f64Neg a != f64Neg b) 0 ∧
    (f64Real a ≠ 0 → f64Mul a b = f64Inf (f64Neg a != f64Neg b)) ∧
    (f64Real a = 0 → f64IsNan (f64Mul a b) = true)) ∧
  (f64IsInf a = true → f64IsInf b = true →
    (f64Neg a = f64Neg b → f64Add a b = a ∧ f64IsNan (f64Sub a b) = true) ∧
    (f64Neg a ≠ f64Neg b → f64IsNan (f64Add a b) = true ∧ f64Sub a b = a) ∧
    f64Mul a b = f64Inf (f64Neg a != f64Neg b) ∧ f64IsNan (f64Div a b) = true)

/-- The four operations when an operand is a NaN (00_scope.md R8, R9). -/
def NanArithmetic (a b : F64) : Prop :=
  f64IsNan (f64Add a b) = true ∧ f64IsNan (f64Sub a b) = true ∧ f64IsNan (f64Mul a b) = true ∧
  f64IsNan (f64Div a b) = true

/-- The host presents these commands, one after another, and takes every response. -/
def runAll (s : State) (cs : List Command) : Host.Outcome State Fault Refusal :=
  Host.Core.run Sys2Proof.core cs.length { s with inputs := cs.map .command }

end Sys2Proof.Machine
end

