-- ==== Sys2Proof/Certificates/Slice0/Obligations.lean ====
section
/-! DEFINITION. The statements for the provers. Each docstring names the rules of spec/ the statement formalises. -/

open Sys2Proof Sys2Proof.Machine

/-! ## Encoding -/

/-- 30_encoding.md R51 to R53: every well-formed instruction, with every operand its field admits, is read back from the
command it is presented as. -/
def Obligations.DecodeEncodeRoundTrip : Prop :=
  ∀ i : Instr, i.wellFormed = true → decode (encode i).word (encode i).data = .ok i

/-- 30_encoding.md R51 to R54: a word that decodes is the word of the instruction it decodes to, so no bit of it is
dropped, and the operands are in range. -/
def Obligations.DecodedWordIsItsEncoding : Prop :=
  ∀ (w : Word) (d : F64) (i : Instr), decode w d = .ok i → i.wellFormed = true ∧ (encode i).word = w

/-- 30_encoding.md R53: "a word `w` is the command exactly when `(w AND mask) = match`", for the twenty rows of the map. -/
def Obligations.DecodeAgreesWithOpcodeMap : Prop :=
  ∀ (w : Word) (d : F64),
    (∀ i, decode w d = .ok i → ∃ r ∈ opcodeMap, r.mnemonic = i.mnemonic ∧ w &&& r.mask = r.pattern) ∧
    (∀ r ∈ opcodeMap, w &&& r.mask = r.pattern → ∃ i, decode w d = .ok i ∧ i.mnemonic = r.mnemonic)

/-- 30_encoding.md R54: every word matches exactly one row of the map or none. -/
def Obligations.OpcodeRowsNeverOverlap : Prop :=
  ∀ (w : Word), ∀ r ∈ opcodeMap, ∀ r' ∈ opcodeMap,
    w &&& r.mask = r.pattern → w &&& r'.mask = r'.pattern → r = r'

/-- 30_encoding.md R52: `cmd_data` is ignored by every command other than WPUSH, whose operand is the whole of it. -/
def Obligations.OnlyWpushReadsCmdData : Prop :=
  ∀ (w : Word) (d d' : F64),
    decode w d = decode w d' ∨ (w = 0x11000000#32 ∧ decode w d = .ok (.wpush d) ∧ decode w d' = .ok (.wpush d'))

/-- The example words of 30_encoding.md R60 and the illegal words of R55 and 60_exceptions.md R132. -/
def Obligations.ExampleWordsDecode : Prop :=
  decode 0x00000000#32 0#64 = .ok .nop ∧ decode 0x11000000#32 0x3FD0000000000000#64 = .ok (.wpush 0x3FD0000000000000#64) ∧
  decode 0x20000005#32 0#64 = .ok (.gzr 5) ∧ decode 0x21000012#32 0#64 = .ok (.gzn 18) ∧
  decode 0x34000000#32 0#64 = .ok (.rdnf 0) ∧ decode 0x4200000D#32 0#64 = .ok (.rdft 13) ∧
  decode 0x5100004D#32 0#64 = .ok (.ckadd 0x4D) ∧ decode 0x5300013B#32 0#64 = .ok (.ckcmp 0x013B) ∧
  decode 0xFFFFFFFF#32 0#64 = .error (.unknownOpcode 0xFF) ∧ decode 0x04000000#32 0#64 = .error (.unknownOpcode 4) ∧
  decode 0x40000001#32 0#64 = .error (.reservedBits 0x40) ∧ decode 0x20000105#32 0#64 = .error (.reservedBits 0x20)

/-! ## System commands -/

/-- 45_system.md R120, the whole rule. -/
def Obligations.NopDoesNothing : Prop :=
  (∀ d, decode 0x00000000#32 d = .ok .nop) ∧
  ∀ s : State, ∃ r, exec .nop s = .next { s with out := r :: s.out } ∧ Reports r false false 0#16 0#64

/-- 45_system.md R121 with the reset values of 10_state.md R35. -/
def Obligations.SrstGivesResetState : Prop :=
  (∀ d, decode 0x01000000#32 d = .ok .srst) ∧
  ∀ s : State, ∃ r,
    exec .srst s = .next { s with
      win := [], nf := Vector.replicate 19 0#64, nfen := false, ca := Vector.replicate 19 0#64, calcnt := 0#16,
      ck := 0#16, nibbuf := 0#4, nibv := false, esr := 0#8, out := r :: s.out } ∧
    Reports r false false 0#16 0#64

/-- 45_system.md R122, the whole rule but for what it quotes of the host's software. -/
def Obligations.DclrClearsDecoderSide : Prop :=
  (∀ d, decode 0x02000000#32 d = .ok .dclr) ∧
  (∀ s : State, ∃ r,
    exec .dclr s = .next { s with ck := 0#16, nibbuf := 0#4, nibv := false, out := r :: s.out } ∧
    Reports r false false 0#16 0#64) ∧
  ∀ s t u v : State, exec .dclr s = .next t → exec .ckclr s = .next u → exec .nclr u = .next v → v.toBlock = t.toBlock

/-- 45_system.md R123 with the layout of `STATUS` of 10_state.md R29. -/
def Obligations.RdstReadsStatus : Prop :=
  (∀ d, decode 0x03000000#32 d = .ok .rdst) ∧
  ∀ s : State, ∃ r, exec .rdst s = .next { s with out := r :: s.out } ∧
    r.fault = 0#4 ∧ r.cond = false ∧ r.byteRdy = false ∧ r.reserved = 0#10 ∧ r.data = 0#64 ∧
    r.ival.getLsbD 0 = decide (s.win.length = s.params.nSym) ∧ r.ival.getLsbD 1 = s.nfen ∧
    r.ival.getLsbD 2 = s.nibv ∧ r.ival.getLsbD 3 = false ∧ r.ival.extractLsb' 4 4 = s.nibbuf ∧
    r.ival.extractLsb' 8 8 = s.esr

/-! ## Window commands -/

/-- 40_window.md R70, the whole rule. -/
def Obligations.WclrEmptiesWindow : Prop :=
  (∀ d, decode 0x10000000#32 d = .ok .wclr) ∧
  ∀ s : State, ∃ r, exec .wclr s = .next { s with win := [], out := r :: s.out } ∧ Reports r false false 0#16 0#64

/-- 40_window.md R71, the whole rule: a finite sample is appended, the oldest leaves a full window, `COND` is `WFULL`
after the push; an infinity or a NaN faults with `E_NONFIN` and the window stays. -/
def Obligations.WpushAppendsAndSlides : Prop :=
  (∀ d, decode 0x11000000#32 d = .ok (.wpush d)) ∧
  ∀ (s : State) (x : F64),
    (f64Finite x = true → ∃ r w,
      exec (.wpush x) s = .next { s with win := w, out := r :: s.out } ∧
      (s.win.length < s.params.nSym → w = s.win ++ [x]) ∧
      (s.params.nSym ≤ s.win.length → w = (s.win ++ [x]).tail) ∧
      Reports r (decide (w.length = s.params.nSym)) false 0#16 0#64) ∧
    (f64Finite x = false → ∃ r,
      exec (.wpush x) s = .next { s with esr := s.esr ||| 0x10#8, out := r :: s.out } ∧ ReportsFault r 4)

/-- 40_window.md R71: "After exactly `N_SYM` pushes following WCLR the window is those `N_SYM` samples in push order",
whatever the window held before (the pseudo-instruction WLOAD of 30_encoding.md R61). -/
def Obligations.WloadFillsWindowInOrder : Prop :=
  ∀ (s : State) (xs : List F64), xs.length = s.params.nSym → (∀ x ∈ xs, f64Finite x = true) →
    ∃ t, runAll s ((Pseudo.wload xs).expand.map encode) = .next t ∧
      t.toBlock = { s.toBlock with win := xs } ∧ t.out.length = s.out.length + xs.length + 1

/-! ## Detector -/

/-- 41_detector.md R76: the recurrence and the closing formula, in their order of operations, for any number type. `s n`
is the value of `s1` after `n` turns and `s'` the same for `s2`. -/
def Obligations.RawPowerFollowsRecurrence : Prop :=
  ∀ (ρ α : Type) (N : Numerics ρ α) (p : Params ρ α) (w : List α) (i : Fin 19) (s s' : Nat → α),
    s 0 = N.zero → s' 0 = N.zero →
    (∀ n (h : n < w.length), s (n + 1) = N.fsub (N.fadd w[n] (N.fmul p.coef[i] (s n))) (s' n)) →
    (∀ n, n < w.length → s' (n + 1) = s n) →
    rawPower N p w i =
      N.fsub (N.fadd (N.fmul (s w.length) (s w.length)) (N.fmul (s' w.length) (s' w.length)))
        (N.fmul (N.fmul p.coef[i] (s w.length)) (s' w.length))

/-- 41_detector.md R79: index test first, window test second, else the raw power; no state changes (the model's count of
free NaN values apart, log entry 2). -/
def Obligations.GzrReturnsRawPower : Prop :=
  (∀ d idx, idx ≤ 31 → decode (BitVec.ofNat 32 (0x20000000 + idx)) d = .ok (.gzr idx)) ∧
  ∀ (s : State) (idx : Nat),
    (18 < idx → ∃ r, exec (.gzr idx) s = .next { s with esr := s.esr ||| 0x04#8, out := r :: s.out } ∧
      ReportsFault r 2) ∧
    (idx ≤ 18 → s.win.length ≠ s.params.nSym → ∃ r,
      exec (.gzr idx) s = .next { s with esr := s.esr ||| 0x08#8, out := r :: s.out } ∧ ReportsFault r 3) ∧
    (∀ h : idx < 19, s.win.length = s.params.nSym → ∃ r k,
      exec (.gzr idx) s = .next { s with out := r :: s.out, nanCount := k } ∧
      ReportsPower r (rawPower binary64 s.params s.win ⟨idx, h⟩))

/-- 41_detector.md R80 with the normalisation of R78 (`KNF` by its pattern, 00_scope.md R10). That `EPS`
is the NUM nearest the parameter is the model's reading (DEDUCED, log entry 12); the count of free NaN values is the
model's own (log entry 2). -/
def Obligations.GznReturnsNormalisedPower : Prop :=
  (∀ d idx, idx ≤ 31 → decode (BitVec.ofNat 32 (0x21000000 + idx)) d = .ok (.gzn idx)) ∧
  ∀ (s : State) (idx : Nat),
    (18 < idx → ∃ r, exec (.gzn idx) s = .next { s with esr := s.esr ||| 0x04#8, out := r :: s.out } ∧
      ReportsFault r 2) ∧
    (idx ≤ 18 → s.win.length ≠ s.params.nSym → ∃ r,
      exec (.gzn idx) s = .next { s with esr := s.esr ||| 0x08#8, out := r :: s.out } ∧ ReportsFault r 3) ∧
    (∀ h : idx < 19, s.win.length = s.params.nSym → s.nfen = false → ∃ r k,
      exec (.gzn idx) s = .next { s with out := r :: s.out, nanCount := k } ∧
      ReportsPower r (rawPower binary64 s.params s.win ⟨idx, h⟩)) ∧
    (∀ h : idx < 19, s.win.length = s.params.nSym → s.nfen = true → ∃ r k,
      exec (.gzn idx) s = .next { s with out := r :: s.out, nanCount := k } ∧
      ReportsPower r (f64Div (rawPower binary64 s.params s.win ⟨idx, h⟩)
        (f64Add (f64Mul s.nf[idx] 0x3FEB333333333333#64) (f64Lit s.params.eps))))

/-- 41_detector.md R81: under binary64 the raw power is never `-0`. -/
def Obligations.RawPowerIsNeverNegativeZero : Prop :=
  ∀ (p : Params ℚ F64) (w : List F64) (i : Fin 19), rawPower binary64 p w i ≠ 0x8000000000000000#64

/-! ## Calibration -/

/-- 42_calibration.md R86, the whole rule. -/
def Obligations.CalclrZeroesAccumulators : Prop :=
  (∀ d, decode 0x30000000#32 d = .ok .calclr) ∧
  ∀ s : State, ∃ r,
    exec .calclr s = .next { s with ca := Vector.replicate 19 0#64, calcnt := 0#16, out := r :: s.out } ∧
    Reports r false false 0#16 0#64

/-- 42_calibration.md R87, the whole rule: the nineteen raw powers are added, the count advances and the window is
consumed; the faults come in the order window, counter, power not finite, and change nothing but their `ESR` bit. -/
def Obligations.CalaccAccumulatesWindow : Prop :=
  (∀ d, decode 0x31000000#32 d = .ok .calacc) ∧
  ∀ s : State,
    (s.win.length = s.params.nSym → s.calcnt ≠ 65535#16 →
      (∀ i : Fin 19, f64Finite (rawPower binary64 s.params s.win i) = true) →
      ∃ r ca', exec .calacc s = .next { s with ca := ca', calcnt := s.calcnt + 1#16, win := [], out := r :: s.out } ∧
        (∀ i : Fin 19, ca'[i] = f64Add s.ca[i] (rawPower binary64 s.params s.win i)) ∧
        Reports r false false (s.calcnt + 1#16) 0#64) ∧
    (s.win.length ≠ s.params.nSym → ∃ r,
      exec .calacc s = .next { s with esr := s.esr ||| 0x08#8, out := r :: s.out } ∧ ReportsFault r 3) ∧
    (s.win.length = s.params.nSym → s.calcnt = 65535#16 → ∃ r,
      exec .calacc s = .next { s with esr := s.esr ||| 0x20#8, out := r :: s.out } ∧ ReportsFault r 5) ∧
    (s.win.length = s.params.nSym → s.calcnt ≠ 65535#16 →
      (∃ i : Fin 19, f64Finite (rawPower binary64 s.params s.win i) = false) → ∃ r,
      exec .calacc s = .next { s with esr := s.esr ||| 0x10#8, out := r :: s.out } ∧ ReportsFault r 4)

/-- 42_calibration.md R88, the whole rule. -/
def Obligations.CalfinAveragesOrDisables : Prop :=
  (∀ d, decode 0x32000000#32 d = .ok .calfin) ∧
  ∀ s : State,
    (4 ≤ s.calcnt.toNat → ∃ r nf', exec .calfin s = .next { s with nf := nf', nfen := true, out := r :: s.out } ∧
      (∀ i : Fin 19, nf'[i] = f64Div s.ca[i] (f64OfNat s.calcnt.toNat)) ∧ Reports r true false s.calcnt 0#64) ∧
    (s.calcnt.toNat < 4 → ∃ r, exec .calfin s = .next { s with nfen := false, out := r :: s.out } ∧
      Reports r false false s.calcnt 0#64)

/-- 42_calibration.md R89, the whole rule. -/
def Obligations.NfdisDisablesNormalisation : Prop :=
  (∀ d, decode 0x33000000#32 d = .ok .nfdis) ∧
  ∀ s : State, ∃ r, exec .nfdis s = .next { s with nfen := false, out := r :: s.out } ∧ Reports r false false 0#16 0#64

/-- 42_calibration.md R90 with R87 and R88: `NF[idx]` is returned as it stands. That an infinite one is returned too is the
model's reading where 30_encoding.md R57 differs (DEDUCED, log entry 10). -/
def Obligations.RdnfReadsNoiseFloor : Prop :=
  (∀ d idx, idx ≤ 31 → decode (BitVec.ofNat 32 (0x34000000 + idx)) d = .ok (.rdnf idx)) ∧
  ∀ (s : State) (idx : Nat),
    (18 < idx → ∃ r, exec (.rdnf idx) s = .next { s with esr := s.esr ||| 0x04#8, out := r :: s.out } ∧
      ReportsFault r 2) ∧
    (∀ _ : idx < 19, ∃ r, exec (.rdnf idx) s = .next { s with out := r :: s.out } ∧
      Reports r s.nfen false 0#16 s.nf[idx])

/-- 42_calibration.md R85, R91: the calibration procedure on four or more windows sets every noise floor to the average of
the raw powers, added in the order of the windows, and turns normalisation on. -/
def Obligations.CalibrationAveragesRawPowers : Prop :=
  ∀ (s : State) (ws : List (List F64)),
    (∀ w ∈ ws, w.length = s.params.nSym ∧ (∀ x ∈ w, f64Finite x = true) ∧
      ∀ i : Fin 19, f64Finite (rawPower binary64 s.params w i) = true) →
    4 ≤ ws.length → ws.length ≤ 65535 →
    ∃ t, runAll s ([encode .calclr] ++ ws.flatMap (fun w => (Pseudo.calwin w).expand.map encode) ++ [encode .calfin])
        = .next t ∧
      t.nfen = true ∧ t.calcnt.toNat = ws.length ∧ t.win = [] ∧ t.ck = s.ck ∧ t.nibv = s.nibv ∧
      t.nibbuf = s.nibbuf ∧ t.esr = s.esr ∧
      ∀ i : Fin 19, t.nf[i] =
        f64Div (ws.foldl (fun acc w => f64Add acc (rawPower binary64 s.params w i)) 0#64) (f64OfNat ws.length)

/-! ## Classifier -/

/-- 43_classifier.md R97 and R98(1), under binary64: a symbol is valid with nibble `k` exactly when every power is finite
and, `m` being an index of the largest of the other fifteen, `q[k]` is greater than `q[m]` and either `q[m]` is positive
and the quotient is at least `KCONF`, or `q[m]` is zero and `q[k]` is positive. -/
def Obligations.ClassifyAcceptsClearMaximum : Prop :=
  ∀ (q : Vector F64 16) (k : Fin 16),
    classify binary64 q = some k ↔
      (∀ j : Fin 16, f64Finite q[j] = true) ∧
      ∃ m : Fin 16, m ≠ k ∧ (∀ j : Fin 16, j ≠ k → f64Ge q[m] q[j] = true) ∧ f64Gt q[k] q[m] = true ∧
        ((f64Gt q[m] 0#64 = true ∧ f64Ge (f64Div q[k] q[m]) 0x3FF020C49BA5E354#64 = true) ∨
         (f64Eq q[m] 0#64 = true ∧ f64Gt q[k] 0#64 = true))

/-- 43_classifier.md R98(3): scaling every power exactly by the same positive factor does not change the decision. -/
def Obligations.ClassifyIgnoresExactScaling : Prop :=
  ∀ (q q' : Vector F64 16) (c : ℚ), 0 < c →
    (∀ k : Fin 16, f64Finite q[k] = true ∧ f64Finite q'[k] = true ∧ f64Value q'[k] = c * f64Value q[k]) →
    classify binary64 q' = classify binary64 q

/-- 43_classifier.md R98(4): under `REAL`, the form without division. -/
def Obligations.RealClassifyHasNoDivision : Prop :=
  ∀ (q : Vector ℝ 16) (k : Fin 16) (second : ℝ),
    (∃ m : Fin 16, m ≠ k ∧ q[m] = second) → (∀ j : Fin 16, j ≠ k → q[j] ≤ second) →
    (classify reals q = some k ↔ 0 < q[k] ∧ 0 ≤ second ∧ 1.008 * second ≤ q[k])

/-- 43_classifier.md R100 with R99: the window test, an invalid symbol that changes nothing, a high nibble that waits,
and a low nibble that completes a byte. -/
def Obligations.ClsClassifiesAndAssembles : Prop :=
  (∀ d, decode 0x40000000#32 d = .ok .cls) ∧
  ∀ s : State,
    (s.win.length ≠ s.params.nSym → ∃ r,
      exec .cls s = .next { s with esr := s.esr ||| 0x08#8, out := r :: s.out } ∧ ReportsFault r 3) ∧
    (s.win.length = s.params.nSym → ∃ q : Vector F64 16,
      (∀ k : Fin 16, q[k] = normPower binary64 s.params s.toBlock ⟨3 + k.val, by omega⟩) ∧
      (classify binary64 q = none → ∃ r,
        exec .cls s = .next { s with out := r :: s.out } ∧ Reports r false false 0#16 0#64) ∧
      ∀ k : Fin 16, classify binary64 q = some k →
        (s.nibv = false → ∃ r,
          exec .cls s = .next { s with nibbuf := BitVec.ofNat 4 k.val, nibv := true, out := r :: s.out } ∧
          Reports r true false (BitVec.ofNat 16 (k.val * 256)) 0#64) ∧
        (s.nibv = true → ∃ r,
          exec .cls s = .next { s with nibbuf := 0#4, nibv := false, out := r :: s.out } ∧
          Reports r true true (BitVec.ofNat 16 (k.val * 256 + s.nibbuf.toNat * 16 + k.val)) 0#64))

/-- 43_classifier.md R99 and property S1 of 95_test_vectors.md: two valid symbols, whatever the host does to the window
in between, deliver the byte whose high nibble came first. -/
def Obligations.TwoValidSymbolsDeliverByte : Prop :=
  ∀ (s t u v : State) (hi lo : Fin 16),
    s.nibv = false → s.win.length = s.params.nSym →
    classify binary64 (nibblePowers binary64 s.params s.toBlock) = some hi → exec .cls s = .next t →
    u.nibv = t.nibv → u.nibbuf = t.nibbuf → u.win.length = u.params.nSym →
    classify binary64 (nibblePowers binary64 u.params u.toBlock) = some lo → exec .cls u = .next v →
    v.nibv = false ∧ v.nibbuf = 0#4 ∧
    ∃ r, v.out = r :: u.out ∧ r.byteRdy = true ∧ (r.ival.extractLsb' 0 8).toNat = hi.val * 16 + lo.val

/-- 43_classifier.md R101, the whole rule. -/
def Obligations.NclrDropsPendingNibble : Prop :=
  (∀ d, decode 0x41000000#32 d = .ok .nclr) ∧
  ∀ s : State, ∃ r, exec .nclr s = .next { s with nibbuf := 0#4, nibv := false, out := r :: s.out } ∧
    Reports r false false 0#16 0#64

/-- 43_classifier.md R102 with the table of 10_state.md R30 and 00_scope.md R10: the two preamble tones, the start tone,
then the nibble tones `F_NIB0 + k*F_STEP`, each the NUM nearest the exact value, and never an infinity or a NaN
(30_encoding.md R57; DEDUCED, log entry 10). -/
def Obligations.RdftReadsFrequencyTable : Prop :=
  (∀ d idx, idx ≤ 31 → decode (BitVec.ofNat 32 (0x42000000 + idx)) d = .ok (.rdft idx)) ∧
  ∀ s : State,
    (∀ idx, 18 < idx → ∃ r, exec (.rdft idx) s = .next { s with esr := s.esr ||| 0x04#8, out := r :: s.out } ∧
      ReportsFault r 2) ∧
    (∃ r, exec (.rdft 0) s = .next { s with out := r :: s.out } ∧ Reports r false false 0#16 (f64Lit s.params.fPreA)) ∧
    (∃ r, exec (.rdft 1) s = .next { s with out := r :: s.out } ∧ Reports r false false 0#16 (f64Lit s.params.fPreB)) ∧
    (∃ r, exec (.rdft 2) s = .next { s with out := r :: s.out } ∧ Reports r false false 0#16 (f64Lit s.params.fStart)) ∧
    (∀ k : Nat, k ≤ 15 → ∃ r, exec (.rdft (3 + k)) s = .next { s with out := r :: s.out } ∧
      Reports r false false 0#16 (f64Lit (s.params.fNib0 + (k : ℚ) * s.params.fStep))) ∧
    ∀ (idx : Nat) (t : State) (r : Response F64), exec (.rdft idx) s = .next t → t.out = r :: s.out →
      f64Finite r.data = true

/-! ## Checksum -/

/-- 44_checksum.md R112, the whole rule. -/
def Obligations.CkclrZeroesChecksum : Prop :=
  (∀ d, decode 0x50000000#32 d = .ok .ckclr) ∧
  ∀ s : State, ∃ r, exec .ckclr s = .next { s with ck := 0#16, out := r :: s.out } ∧ Reports r false false 0#16 0#64

/-- 44_checksum.md R113, the whole rule: the sum of the old value and the byte, modulo 65536. -/
def Obligations.CkaddAddsByteModulo65536 : Prop :=
  (∀ d imm8, imm8 ≤ 255 → decode (BitVec.ofNat 32 (0x51000000 + imm8)) d = .ok (.ckadd imm8)) ∧
  ∀ (s : State) (imm8 : Nat), imm8 ≤ 255 → ∃ r ck', exec (.ckadd imm8) s = .next { s with ck := ck', out := r :: s.out } ∧
    ck'.toNat = (s.ck.toNat + imm8) % 65536 ∧ Reports r false false ck' 0#64

/-- 44_checksum.md R114, the whole rule, and 20_memory.md R42: the two bytes an encoder transmits are `IVAL[15:8]` and
`IVAL[7:0]`, and the receiver's `first_byte * 256 + second_byte` is the checksum. -/
def Obligations.CkrdReadsChecksum : Prop :=
  (∀ d, decode 0x52000000#32 d = .ok .ckrd) ∧
  ∀ s : State, ∃ r, exec .ckrd s = .next { s with out := r :: s.out } ∧ Reports r false false s.ck 0#64 ∧
    wireBytes r.ival = (r.stat.extractLsb' 24 8, r.stat.extractLsb' 16 8) ∧
    (wireBytes r.ival).1.toNat * 256 + (wireBytes r.ival).2.toNat = s.ck.toNat ∧
    ofWireBytes (wireBytes r.ival).1 (wireBytes r.ival).2 = s.ck

/-- 44_checksum.md R115, the whole rule. -/
def Obligations.CkcmpComparesAllBits : Prop :=
  (∀ d imm16, imm16 ≤ 65535 → decode (BitVec.ofNat 32 (0x53000000 + imm16)) d = .ok (.ckcmp imm16)) ∧
  ∀ (s : State) (imm16 : Nat), imm16 ≤ 65535 → ∃ r, exec (.ckcmp imm16) s = .next { s with out := r :: s.out } ∧
    Reports r (decide (s.ck.toNat = imm16)) false s.ck 0#64

/-- 44_checksum.md R110: after any sequence of bytes the accumulator holds its old value plus their sum modulo 65536, and
nothing else of the architectural state has changed. -/
def Obligations.ChecksumIsSumOfBytes : Prop :=
  ∀ (s : State) (bytes : List Nat), (∀ b ∈ bytes, b ≤ 255) →
    ∃ t, runAll s (bytes.map (fun b => encode (.ckadd b))) = .next t ∧
      t.toBlock = { s.toBlock with ck := BitVec.ofNat 16 (s.ck.toNat + bytes.sum) }

/-- 44_checksum.md R116(1): a packet with exactly one byte changed fails the comparison with the checksum of the original,
and the original passes it. -/
def Obligations.ChecksumDetectsOneChangedByte : Prop :=
  ∀ (s : State) (pre post : List Nat) (v v' : Nat),
    (∀ b ∈ pre, b ≤ 255) → (∀ b ∈ post, b ≤ 255) → v ≤ 255 → v' ≤ 255 → v' ≠ v →
    (∃ t r, runAll s (((Pseudo.cksum (pre ++ v' :: post)).expand ++
        [Instr.ckcmp ((pre ++ v :: post).sum % 65536)]).map encode) = .next t ∧
      t.out.head? = some r ∧ r.fault = 0#4 ∧ r.cond = false) ∧
    (∃ t r, runAll s (((Pseudo.cksum (pre ++ v :: post)).expand ++
        [Instr.ckcmp ((pre ++ v :: post).sum % 65536)]).map encode) = .next t ∧
      t.out.head? = some r ∧ r.fault = 0#4 ∧ r.cond = true)

/-! ## The step -/

/-- 30_encoding.md R50: when the command presented decodes to an instruction, the step is that instruction's meaning, on
the state from which the command has been taken. The list of events is the model's form of the port (log entry 3). -/
def Obligations.StepRunsDecodedInstruction : Prop :=
  ∀ (s : State) (c : Command) (rest : List Input) (i : Instr),
    s.inputs = .command c :: rest → decode c.word c.data = .ok i → step s = exec i { s with inputs := rest }

/-- 60_exceptions.md R132: a word that matches no row of the opcode map sets `ESR[1]`, changes nothing else, and is
answered with code 1, whatever `cmd_data` is. -/
def Obligations.UnmatchedWordIsIllegal : Prop :=
  ∀ (s : State) (c : Command) (rest : List Input), s.inputs = .command c :: rest →
    (∀ r ∈ opcodeMap, c.word &&& r.mask ≠ r.pattern) →
    ∃ r, step s = .next { s with inputs := rest, esr := s.esr ||| 0x02#8, out := r :: s.out } ∧ ReportsFault r 1

/-- 70_reset_and_hazards.md R150, R151: hardware reset gives every element its reset value, with no response and no effect
of a command in progress. 60_exceptions.md R148: with no command presented the state is held. The events are the model's form
of the port (log entry 3). -/
def Obligations.HardResetAndIdleSteps : Prop :=
  (∀ (s : State) (inProgress : Option Command) (rest : List Input), s.inputs = .reset inProgress :: rest →
    step s = .next { s with
      inputs := rest, win := [], nf := Vector.replicate 19 0#64, nfen := false, ca := Vector.replicate 19 0#64,
      calcnt := 0#16, ck := 0#16, nibbuf := 0#4, nibv := false, esr := 0#8 }) ∧
  (∀ s : State, s.inputs = [] → step s = .next s)

/-- 10_state.md R35: the value of every element at reset, for an instance with any parameters. -/
def Obligations.ResetValues : Prop :=
  ∀ p : Params ℚ F64,
    (State.resetWith p).win = [] ∧ (∀ i : Fin 19, (State.resetWith p).nf[i] = 0#64) ∧
    (State.resetWith p).nfen = false ∧ (∀ i : Fin 19, (State.resetWith p).ca[i] = 0#64) ∧
    (State.resetWith p).calcnt = 0#16 ∧ (State.resetWith p).ck = 0#16 ∧ (State.resetWith p).nibbuf = 0#4 ∧
    (State.resetWith p).nibv = false ∧ (State.resetWith p).esr = 0#8 ∧
    (0 < p.nSym → statusWord p (State.resetWith p).toBlock = 0#16)

/-- 30_encoding.md R50, 93_implementation_defined.md part 1: every command in every state has a next state and exactly one
response, and uses up exactly that command; the parameters never change (10_state.md R30). -/
def Obligations.EveryCommandIsAnswered : Prop :=
  ∀ (s : State) (c : Command) (rest : List Input), s.inputs = .command c :: rest →
    ∃ t r, step s = .next t ∧ t.out = r :: s.out ∧ t.inputs = rest ∧ t.params = s.params

/-- 60_exceptions.md R137: the one fault a command reports is the first failing test of the fixed order. -/
def Obligations.FaultFollowsPriority : Prop :=
  ∀ (s : State) (c : Command) (rest : List Input), s.inputs = .command c :: rest →
    ∃ t r, step s = .next t ∧ t.out = r :: s.out ∧
      r.fault.toNat = expectedFault s.params s.toBlock (decode c.word c.data)

/-- 60_exceptions.md R130, R131, R138: a command answered with a fault code has changed nothing but the `ESR` bit of that
code, its code is one of 1 to 5, and its response holds nothing else. -/
def Obligations.FaultingCommandChangesOnlyEsr : Prop :=
  ∀ (s t : State) (c : Command) (rest : List Input) (r : Response F64), s.inputs = .command c :: rest →
    step s = .next t → t.out = r :: s.out → r.fault ≠ 0#4 →
    1 ≤ r.fault.toNat ∧ r.fault.toNat ≤ 5 ∧ ReportsFault r r.fault.toNat ∧
    t = { s with inputs := rest, esr := s.esr ||| BitVec.twoPow 8 r.fault.toNat, out := r :: s.out }

/-- 10_state.md R37, every column of the table: a command not listed against a piece of state leaves it unchanged, and one
that completes, other than SRST, leaves `ESR`. -/
def Obligations.UnlistedCommandsLeaveStateAlone : Prop :=
  ∀ (i : Instr) (s t : State), exec i s = .next t →
    ((∀ x, i ≠ .wpush x) → i ≠ .wclr → i ≠ .calacc → i ≠ .srst → t.win = s.win) ∧
    (i ≠ .calfin → i ≠ .srst → t.nf = s.nf) ∧
    (i ≠ .calfin → i ≠ .nfdis → i ≠ .srst → t.nfen = s.nfen) ∧
    (i ≠ .calclr → i ≠ .calacc → i ≠ .srst → t.ca = s.ca ∧ t.calcnt = s.calcnt) ∧
    ((∀ n, i ≠ .ckadd n) → i ≠ .ckclr → i ≠ .dclr → i ≠ .srst → t.ck = s.ck) ∧
    (i ≠ .cls → i ≠ .nclr → i ≠ .dclr → i ≠ .srst → t.nibbuf = s.nibbuf ∧ t.nibv = s.nibv) ∧
    (i ≠ .srst → ∀ r, t.out = r :: s.out → r.fault = 0#4 → t.esr = s.esr)

/-- 10_state.md R28: no command other than SRST clears an `ESR` bit. -/
def Obligations.EsrBitsAreSticky : Prop :=
  ∀ (s t : State) (c : Command) (rest : List Input), s.inputs = .command c :: rest → step s = .next t →
    c.word ≠ 0x01000000#32 → s.esr &&& t.esr = s.esr

/-- 10_state.md R23: `NFEN` goes from 0 to 1 only by a CALFIN with at least four windows accumulated. -/
def Obligations.OnlyCalfinEnablesNormalisation : Prop :=
  ∀ s t : State, step s = .next t → s.nfen = false → t.nfen = true →
    4 ≤ s.calcnt.toNat ∧ ∃ d rest, s.inputs = .command ⟨0x32000000#32, d⟩ :: rest

/-- 20_memory.md R44: the reading commands change no architectural state when they complete, and repeated they give the
same response (a NaN power up to its sign and payload, 93_implementation_defined.md U6). -/
def Obligations.ReadCommandsAreIdempotent : Prop :=
  ∀ (i : Instr) (s t u : State) (r r' : Response F64),
    (i = .rdst ∨ i = .ckrd ∨ (∃ n, i = .ckcmp n) ∨ (∃ n, i = .rdnf n) ∨ (∃ n, i = .rdft n) ∨ (∃ n, i = .gzr n) ∨
      (∃ n, i = .gzn n)) →
    exec i s = .next t → t.out = r :: s.out → r.fault = 0#4 → exec i t = .next u → u.out = r' :: t.out →
    t.toBlock = s.toBlock ∧ u.toBlock = s.toBlock ∧ r'.stat = r.stat ∧
    (r'.data = r.data ∨ (f64IsNan r.data = true ∧ f64IsNan r'.data = true))

/-- 20_memory.md R47, 00_scope.md R12: what a command does and answers depends on the instance's own state and on that
command, on no later one and on no other instance. That a NaN power is answered with the same bits is the model's own, by
its count of free NaN values (DESIGN CHOICE, log entry 2): 93_implementation_defined.md U6 leaves them any value. -/
def Obligations.CommandDependsOnOwnStateOnly : Prop :=
  ∀ (s s' t t' : State) (c : Command) (rest rest' : List Input),
    s.inputs = .command c :: rest → s'.inputs = .command c :: rest' →
    s.toBlock = s'.toBlock → s.params = s'.params → s.nanCount = s'.nanCount →
    step s = .next t → step s' = .next t' →
    t.toBlock = t'.toBlock ∧ ∃ r, t.out = r :: s.out ∧ t'.out = r :: s'.out

/-- 30_encoding.md R50: the machine is the function `step : State x Command -> State x Response` with
`NUMERICS = BINARY64`, a NaN power up to its sign and payload (log entry 2). The function takes any real parameters
(00_scope.md R6), and at the machine's rational ones (log entry 4) it is the same function. -/
def Obligations.StepIsTheSpecsFunction : Prop :=
  (∀ (s : State) (c : Command) (rest : List Input), s.inputs = .command c :: rest →
    ∃ t r, step s = .next t ∧ t.out = r :: s.out ∧
      t.toBlock = (commandStep binary64 s.params c.word c.data s.toBlock).1 ∧
      r.stat = (commandStep binary64 s.params c.word c.data s.toBlock).2.stat ∧
      (if f64IsNan (commandStep binary64 s.params c.word c.data s.toBlock).2.data then f64IsNan r.data = true
       else r.data = (commandStep binary64 s.params c.word c.data s.toBlock).2.data)) ∧
  ∀ (p : Params ℚ F64) (w : Word) (x : F64) (b : Block F64),
    commandStep binary64Real p.toReal w x b = commandStep binary64 p w x b

/-! ## Invariant -/

/-- 10_state.md R35: the reset state of an instance with any parameters is legal. `Legal` is the model's predicate
(log entry 13). -/
def Obligations.ResetIsLegal : Prop := ∀ p : Params ℚ F64, Legal p (State.resetWith p).toBlock

/-- 10_state.md R21, R27, R28, 40_window.md R71, 60_exceptions.md R135: every step keeps a legal state legal.
`Legal` is the model's predicate (log entry 13). -/
def Obligations.StepKeepsLegal : Prop :=
  ∀ s t : State, Legal s.params s.toBlock → step s = .next t → Legal t.params t.toBlock

/-! ## Numbers -/

/-- 00_scope.md R8, R9: on finite operands each binary64 operation is the exact result rounded once, to nearest, ties to
even, with the sign of a zero; which results are infinities and which are NaN (93_implementation_defined.md U6) follows
for infinite and NaN operands and for a division by zero (IEEE 754 as generally known, log entry 14). -/
def Obligations.Binary64RoundsToNearestEven : Prop :=
  ∀ a b : F64,
    (f64Finite a = true → f64Finite b = true → FiniteArithmetic a b) ∧
    InfiniteArithmetic a b ∧
    (f64IsNan a = true ∨ f64IsNan b = true → NanArithmetic a b)

/-- 00_scope.md R8, R9: the comparisons compare the values of operands that are numbers, an infinity lying beyond every
finite value, and are false on a NaN. -/
def Obligations.Binary64ComparisonsFollowValues : Prop :=
  (∀ a b : F64, f64IsNan a = false → f64IsNan b = false →
    (f64Gt a b = true ↔ f64Extended b < f64Extended a) ∧ (f64Ge a b = true ↔ f64Extended b ≤ f64Extended a) ∧
    (f64Eq a b = true ↔ f64Extended a = f64Extended b)) ∧
  (∀ a b : F64, f64IsNan a = true ∨ f64IsNan b = true → f64Gt a b = false ∧ f64Ge a b = false ∧ f64Eq a b = false)

/-- 00_scope.md R9: `toNum` is exact below 65536. -/
def Obligations.ToNumIsExact : Prop :=
  ∀ n : Nat, n < 65536 → f64Finite (f64OfNat n) = true ∧ f64Value (f64OfNat n) = n

/-- 00_scope.md R9, R10: `lit(d)` and the NUM nearest any real parameter are the nearest binary64 value, which is never an
infinity (30_encoding.md R57; DEDUCED, log entry 10). That a tie goes to the even value is R8's rounding, IEEE 754 as
generally known (PRESUMED, log entry 14). -/
def Obligations.LitIsNearest : Prop :=
  (∀ q : ℚ, NearestFinite (q : ℝ) (f64Lit q)) ∧ (∀ x : ℝ, NearestFinite x (f64Nearest x)) ∧
  ∀ q : ℚ, f64Nearest (q : ℝ) = f64Lit q

/-- 00_scope.md R10: the patterns of `KNF` and `KCONF`. -/
def Obligations.ConstantPatterns : Prop :=
  knf binary64 = 0x3FEB333333333333#64 ∧ kconf binary64 = 0x3FF020C49BA5E354#64

/-! ## Exact arithmetic -/

/-- 41_detector.md R77: under `REAL` the raw power is the squared magnitude of the discrete-time Fourier transform of the
window at the tracked frequency, and so never negative. -/
def Obligations.RealRawPowerIsDftPower : Prop :=
  ∀ (p : Params ℝ ℝ) (w : List ℝ) (i : Fin 19), CoefExact p →
    rawPower reals p w i = dftPower w (omega p i) ∧ 0 ≤ rawPower reals p w i

/-- 41_detector.md R77, consequences: the power of the zero window, of a single non-zero sample, and of a scaled window. -/
def Obligations.RealPowerConsequences : Prop :=
  ∀ (p : Params ℝ ℝ) (i : Fin 19), CoefExact p →
    (∀ n, rawPower reals p (List.replicate n 0) i = 0) ∧
    (∀ (m n : Nat) (a : ℝ), rawPower reals p (List.replicate m 0 ++ a :: List.replicate n 0) i = a * a) ∧
    (∀ (w : List ℝ) (k : ℝ), rawPower reals p (w.map (fun x => k * x)) i = k * k * rawPower reals p w i)

/-- 60_exceptions.md R135: under `REAL` the fault `E_NONFIN` cannot occur. -/
def Obligations.RealNeverReportsNonfinite : Prop :=
  ∀ (p : Params ℝ ℝ) (w : Word) (x : ℝ) (b : Block ℝ), (commandStep reals p w x b).2.fault ≠ 4#4

/-- 43_classifier.md R100, 95_test_vectors.md V14: under `REAL` a window with no energy at any nibble tone is reported
invalid, with and without normalisation; with it, the divisor of 41_detector.md R78 is positive because `EPS` is
(00_scope.md R6) and the noise floors are not negative. -/
def Obligations.RealSilentWindowIsInvalid : Prop :=
  ∀ (p : Params ℝ ℝ) (b : Block ℝ), b.win.length = p.nSym →
    (b.nfen = true → 0 < p.eps ∧ ∀ k : Fin 16, 0 ≤ b.nf[nibbleTone k]) →
    (∀ k : Fin 16, rawPower reals p b.win (nibbleTone k) = 0) →
    classifySymbol reals p b = (b, { stat := 0#32, data := 0 })
end

