-- ==== Sys2Proof/Laws/Float64.lean ====
section
/-! SUPPORT. The binary64 operations: the fields of a packed pattern, the kinds of a pattern, and which operations give a
number. -/

namespace Sys2Proof.Machine

/-! ### Fields -/

theorem f64InfMag_lt : f64InfMag < 2 ^ 63 := by norm_num [f64InfMag]

theorem f64Mag_lt (x : F64) : f64Mag x < 2 ^ 63 := Nat.mod_lt _ (by norm_num)

/-- A pattern is its sign and its magnitude. -/
theorem f64_toNat (x : F64) : x.toNat = (if f64Neg x then 2 ^ 63 else 0) + f64Mag x := by
  have hx := x.isLt
  unfold f64Neg f64Mag
  by_cases h : 2 ^ 63 ≤ x.toNat
  · simp only [h, decide_true, if_true]; omega
  · simp only [h, decide_false]; simp only [Bool.false_eq_true, if_false]; omega

theorem f64Pack_toNat {m : Nat} (neg : Bool) (h : m < 2 ^ 63) :
    (f64Pack neg m).toNat = (if neg then 2 ^ 63 else 0) + m := by
  unfold f64Pack
  rw [BitVec.toNat_ofNat]
  cases neg
  · simp only [Bool.false_eq_true, if_false]; omega
  · simp only [if_true]; omega

@[simp] theorem f64Mag_pack {m : Nat} (neg : Bool) (h : m < 2 ^ 63) : f64Mag (f64Pack neg m) = m := by
  unfold f64Mag
  rw [f64Pack_toNat neg h]
  cases neg
  · simp only [Bool.false_eq_true, if_false]; omega
  · simp only [if_true]; omega

@[simp] theorem f64Neg_pack {m : Nat} (neg : Bool) (h : m < 2 ^ 63) : f64Neg (f64Pack neg m) = neg := by
  unfold f64Neg
  rw [f64Pack_toNat neg h]
  cases neg
  · simp only [Bool.false_eq_true, if_false, decide_eq_false_iff_not]; omega
  · simp only [if_true, decide_eq_true_eq]; omega

/-- Equal sign and equal magnitude make equal patterns. -/
theorem f64_ext {x y : F64} (hs : f64Neg x = f64Neg y) (hm : f64Mag x = f64Mag y) : x = y := by
  apply BitVec.eq_of_toNat_eq
  rw [f64_toNat x, f64_toNat y, hs, hm]

theorem f64Negate_toNat (x : F64) :
    (f64Negate x).toNat = (if f64Neg x then 0 else 2 ^ 63) + f64Mag x := by
  have hb : f64Neg x = x.getLsbD 63 := by
    have := x.isLt
    rw [f64Neg, ← BitVec.msb_eq_getLsbD_last, BitVec.msb_eq_decide]
  have e : f64Negate x = f64Pack (!f64Neg x) (f64Mag x) := by
    apply BitVec.eq_of_getLsbD_eq
    intro i hi
    have hm := f64Mag_lt x
    have hp := f64Pack_toNat (!f64Neg x) hm
    rw [f64Negate, BitVec.getLsbD_xor, BitVec.getLsbD, BitVec.getLsbD, BitVec.getLsbD, hp]
    have h8 : (0x8000000000000000#64).toNat = 2 ^ 63 := by decide
    rw [h8, Nat.testBit_two_pow]
    by_cases h63 : i = 63
    · subst h63
      have hx63 : x.toNat.testBit 63 = f64Neg x := by rw [hb]; rfl
      rw [hx63]
      cases f64Neg x
      · have : (2 ^ 63 + f64Mag x).testBit 63 = true := by
          rw [Nat.testBit_two_pow_add_eq, Nat.testBit_lt_two_pow hm]; rfl
        simp only [Bool.not_false, if_true, this]; simp
      · simp only [Bool.not_true, Bool.false_eq_true, if_false, Nat.zero_add, Nat.testBit_lt_two_pow hm]; simp
    · have hlt : i < 63 := by omega
      have hmod : x.toNat.testBit i = (f64Mag x).testBit i := by
        rw [f64Mag, Nat.testBit_mod_two_pow]; simp [hlt]
      rw [hmod]
      have hne : ¬ (63 = i) := fun h => h63 h.symm
      cases f64Neg x
      · simp only [Bool.not_false, if_true, hne, decide_false, Bool.xor_false]
        rw [Nat.testBit_two_pow_add_gt hlt]
      · simp [hne]
  rw [e, f64Pack_toNat _ (f64Mag_lt x)]
  cases f64Neg x <;> simp

@[simp] theorem f64Mag_negate (x : F64) : f64Mag (f64Negate x) = f64Mag x := by
  have h := f64Negate_toNat x
  have hm := f64Mag_lt x
  rw [f64Mag, h]
  cases f64Neg x
  · simp only [Bool.false_eq_true, if_false]; omega
  · simp only [if_true]; omega

@[simp] theorem f64Neg_negate (x : F64) : f64Neg (f64Negate x) = !f64Neg x := by
  have h := f64Negate_toNat x
  have hm := f64Mag_lt x
  rw [f64Neg, h]
  cases f64Neg x
  · simp only [Bool.false_eq_true, if_false, Bool.not_false, decide_eq_true_eq]; omega
  · simp only [if_true, Bool.not_true, decide_eq_false_iff_not]; omega

/-! ### Kinds -/

/-- A pattern is finite exactly when it is neither a NaN nor an infinity. -/
theorem f64Finite_iff (x : F64) : f64Finite x = true ↔ f64IsNan x = false ∧ f64IsInf x = false := by
  simp only [f64Finite, f64IsNan, f64IsInf, decide_eq_true_eq, decide_eq_false_iff_not]
  omega

theorem f64Finite_not_nan {x : F64} (h : f64Finite x = true) : f64IsNan x = false := ((f64Finite_iff x).mp h).1

theorem f64Finite_not_inf {x : F64} (h : f64Finite x = true) : f64IsInf x = false := ((f64Finite_iff x).mp h).2

@[simp] theorem f64IsNan_negate (x : F64) : f64IsNan (f64Negate x) = f64IsNan x := by simp [f64IsNan]

@[simp] theorem f64IsInf_negate (x : F64) : f64IsInf (f64Negate x) = f64IsInf x := by simp [f64IsInf]

@[simp] theorem f64Finite_negate (x : F64) : f64Finite (f64Negate x) = f64Finite x := by simp [f64Finite]

/-- A pattern whose magnitude is at most an infinity's is a number. -/
theorem f64Pack_not_nan {m : Nat} (neg : Bool) (h : m ≤ f64InfMag) : f64IsNan (f64Pack neg m) = false := by
  have := f64InfMag_lt
  rw [f64IsNan, f64Mag_pack neg (by omega)]
  simpa using h

/-- Rounding never goes beyond an infinity. -/
theorem f64RoundMag_le (n d : Nat) : f64RoundMag n d ≤ f64InfMag := Nat.min_le_right _ _

theorem f64RoundMag_lt (n d : Nat) : f64RoundMag n d < 2 ^ 63 := lt_of_le_of_lt (f64RoundMag_le n d) f64InfMag_lt

/-- A whole number of units, not zero, does not round to zero. -/
theorem f64RoundMag_ne_zero {n : Nat} (h : n ≠ 0) : f64RoundMag n 1 ≠ 0 := by
  have hinf : f64InfMag ≠ 0 := by norm_num [f64InfMag]
  unfold f64RoundMag
  simp only [Nat.div_one, Nat.one_mul]
  intro h0
  rcases Nat.min_eq_zero_iff.mp h0 with h1 | h1
  · have hk : (n.log2 - 52) * 2 ^ 52 = 0 := (Nat.add_eq_zero_iff.mp h1).1
    have hk0 : n.log2 - 52 = 0 := by
      rcases Nat.mul_eq_zero.mp hk with h2 | h2
      · exact h2
      · exact absurd h2 (by norm_num)
    rw [hk0] at h1
    have hr : roundHalfEven n (2 ^ 0) = n := by
      simp [roundHalfEven, Nat.mod_one]
    rw [hr] at h1
    omega
  · exact hinf h1

/-! ### Results -/

/-- The NUM nearest a number is finite. -/
theorem f64NearestUnits_finite (neg : Bool) (n d : Nat) : f64Finite (f64NearestUnits neg n d) = true := by
  have hinf : f64InfMag - 1 < f64InfMag := by norm_num [f64InfMag]
  have h : min (f64RoundMag n d) (f64InfMag - 1) < f64InfMag := lt_of_le_of_lt (Nat.min_le_right _ _) hinf
  rw [f64Finite, f64NearestUnits, f64Mag_pack neg (h.trans f64InfMag_lt)]
  exact decide_eq_true h

@[simp] theorem f64Lit_finite (q : ℚ) : f64Finite (f64Lit q) = true := f64NearestUnits_finite _ _ _

@[simp] theorem f64IsNan_nan : f64IsNan f64Nan = true := by decide +kernel

/-- The free value is a NaN, whatever its bits (93_implementation_defined.md U6). -/
theorem freeNan_isNan (n : Nat) : f64IsNan (freeNan n) = true := by
  have key : ∀ p : BitVec 64, f64InfMag ≤ f64Mag (p ||| 0x7FF0000000000000#64) := by
    intro p
    have h : 0x7FF0000000000000 ≤ ((p ||| 0x7FF0000000000000#64).toNat) % 2 ^ 63 := by
      have e : ((p ||| 0x7FF0000000000000#64).toNat) % 2 ^ 63 = (p.toNat % 2 ^ 63) ||| 0x7FF0000000000000 := by
        rw [BitVec.toNat_or, Nat.or_mod_two_pow]; rfl
      rw [e]; exact Nat.right_le_or
    exact h
  unfold freeNan
  simp only
  generalize hp : Config.nanBits n ||| 0x7FF0000000000000#64 = p
  have hge : f64InfMag ≤ f64Mag p := by rw [← hp]; exact key _
  by_cases h : f64Mag p = f64InfMag
  · rw [if_pos h]
    have e : f64Mag (p ||| 1#64) = f64Mag p ||| 1 := by
      rw [f64Mag, BitVec.toNat_or, Nat.or_mod_two_pow]; rfl
    rw [f64IsNan, e, h]; decide
  · rw [if_neg h, f64IsNan, decide_eq_true_eq]; omega

theorem f64OfSum_not_nan (v : Int) (z : Bool) : f64IsNan (f64OfSum v z) = false := by
  unfold f64OfSum
  split
  · exact f64Pack_not_nan _ (by decide)
  · exact f64Pack_not_nan _ (f64RoundMag_le _ _)

/-- A number plus a finite number is a number. -/
theorem f64Add_not_nan {a b : F64} (ha : f64IsNan a = false) (hb : f64Finite b = true) :
    f64IsNan (f64Add a b) = false := by
  have hbn := f64Finite_not_nan hb
  have hbi := f64Finite_not_inf hb
  unfold f64Add
  simp only [ha, hbn, hbi, Bool.or_self, Bool.false_eq_true, if_false, Bool.false_and]
  split
  · exact ha
  · exact f64OfSum_not_nan _ _

/-- A number divided by a finite number that is not zero is a number. -/
theorem f64Div_not_nan {a b : F64} (ha : f64IsNan a = false) (hb : f64Finite b = true) (h0 : f64Mag b ≠ 0) :
    f64IsNan (f64Div a b) = false := by
  have hbn := f64Finite_not_nan hb
  have hbi := f64Finite_not_inf hb
  unfold f64Div
  simp only [ha, hbn, hbi, h0, Bool.or_self, Bool.false_eq_true, if_false]
  split
  · exact f64Pack_not_nan _ (le_refl _)
  · exact f64Pack_not_nan _ (f64RoundMag_le _ _)

end Sys2Proof.Machine
end

