-- ==== Sys2Proof/Laws/State.lean ====
section
/-! SUPPORT. What each update of the state does to each field: one lemma per field per update, so that no proof unfolds a
record update. -/

namespace Sys2Proof.Machine

section
variable (s : State) (d : Done F64)

@[simp] theorem State.takeInput_toBlock : s.takeInput.toBlock = s.toBlock := rfl
@[simp] theorem State.takeInput_params : s.takeInput.params = s.params := rfl
@[simp] theorem State.takeInput_inputs : s.takeInput.inputs = s.inputs.tail := rfl
@[simp] theorem State.takeInput_out : s.takeInput.out = s.out := rfl
@[simp] theorem State.takeInput_nanCount : s.takeInput.nanCount = s.nanCount := rfl

@[simp] theorem State.hardReset_toBlock : s.hardReset.toBlock = Block.reset 0#64 := rfl
@[simp] theorem State.hardReset_params : s.hardReset.params = s.params := rfl
@[simp] theorem State.hardReset_inputs : s.hardReset.inputs = s.inputs := rfl
@[simp] theorem State.hardReset_out : s.hardReset.out = s.out := rfl
@[simp] theorem State.hardReset_nanCount : s.hardReset.nanCount = s.nanCount := rfl

@[simp] theorem State.finish_toBlock : (s.finish d).toBlock = d.1 := rfl
@[simp] theorem State.finish_params : (s.finish d).params = s.params := rfl
@[simp] theorem State.finish_inputs : (s.finish d).inputs = s.inputs := rfl
@[simp] theorem State.finish_out : (s.finish d).out = d.2 :: s.out := rfl
@[simp] theorem State.finish_nanCount : (s.finish d).nanCount = s.nanCount := rfl

@[simp] theorem State.answerIllegal_toBlock : s.answerIllegal.toBlock = (raise binary64 .illegal s.toBlock).1 := rfl
@[simp] theorem State.answerIllegal_params : s.answerIllegal.params = s.params := rfl
@[simp] theorem State.answerIllegal_inputs : s.answerIllegal.inputs = s.inputs := rfl
@[simp] theorem State.answerIllegal_out :
    s.answerIllegal.out = (raise binary64 .illegal s.toBlock).2 :: s.out := rfl
@[simp] theorem State.answerIllegal_nanCount : s.answerIllegal.nanCount = s.nanCount := rfl

@[simp] theorem State.finishPower_toBlock : (s.finishPower d).toBlock = d.1 := by
  unfold State.finishPower; split <;> rfl
@[simp] theorem State.finishPower_params : (s.finishPower d).params = s.params := by
  unfold State.finishPower; split <;> rfl
@[simp] theorem State.finishPower_inputs : (s.finishPower d).inputs = s.inputs := by
  unfold State.finishPower; split <;> rfl

variable (nbits w : Nat)

@[simp] theorem State.withFetchWord_toBlock : (s.withFetchWord nbits w).toBlock = s.toBlock := rfl
@[simp] theorem State.withFetchWord_params : (s.withFetchWord nbits w).params = s.params := rfl
@[simp] theorem State.withFetchWord_inputs :
    (s.withFetchWord nbits w).inputs = .command (tableCommand nbits w) :: s.inputs := rfl
@[simp] theorem State.withFetchWord_out : (s.withFetchWord nbits w).out = s.out := rfl
@[simp] theorem State.withFetchWord_nanCount : (s.withFetchWord nbits w).nanCount = s.nanCount := rfl

end

section
variable {ρ α : Type} (z : α)

@[simp] theorem Block.reset_win : (Block.reset z).win = [] := rfl
@[simp] theorem Block.reset_nfen : (Block.reset z).nfen = false := rfl
@[simp] theorem Block.reset_calcnt : (Block.reset z).calcnt = 0#16 := rfl
@[simp] theorem Block.reset_ck : (Block.reset z).ck = 0#16 := rfl
@[simp] theorem Block.reset_nibbuf : (Block.reset z).nibbuf = 0#4 := rfl
@[simp] theorem Block.reset_nibv : (Block.reset z).nibv = false := rfl
@[simp] theorem Block.reset_esr : (Block.reset z).esr = 0#8 := rfl
@[simp] theorem Block.reset_nf_get (i : Fin 19) : (Block.reset z).nf[i] = z := by
  simp [Block.reset]
@[simp] theorem Block.reset_ca_get (i : Fin 19) : (Block.reset z).ca[i] = z := by
  simp [Block.reset]

variable (p : Params ℚ F64)

@[simp] theorem State.resetWith_toBlock : (State.resetWith p).toBlock = Block.reset 0#64 := rfl
@[simp] theorem State.resetWith_params : (State.resetWith p).params = p := rfl
@[simp] theorem State.resetWith_inputs : (State.resetWith p).inputs = [] := rfl
@[simp] theorem State.resetWith_out : (State.resetWith p).out = [] := rfl
@[simp] theorem State.resetWith_nanCount : (State.resetWith p).nanCount = 0 := rfl

end

section
variable {ρ α : Type} (N : Numerics ρ α) (b : Block α)

@[simp] theorem respond_fst (c y : Bool) (v : BitVec 16) (x : α) : (respond b c y v x).1 = b := rfl
@[simp] theorem respond_stat (c y : Bool) (v : BitVec 16) (x : α) :
    (respond b c y v x).2.stat = statWord 0#4 c y v := rfl
@[simp] theorem respond_data (c y : Bool) (v : BitVec 16) (x : α) : (respond b c y v x).2.data = x := rfl

variable (c : Cause)

@[simp] theorem raise_win : (raise N c b).1.win = b.win := rfl
@[simp] theorem raise_nf : (raise N c b).1.nf = b.nf := rfl
@[simp] theorem raise_nfen : (raise N c b).1.nfen = b.nfen := rfl
@[simp] theorem raise_ca : (raise N c b).1.ca = b.ca := rfl
@[simp] theorem raise_calcnt : (raise N c b).1.calcnt = b.calcnt := rfl
@[simp] theorem raise_ck : (raise N c b).1.ck = b.ck := rfl
@[simp] theorem raise_nibbuf : (raise N c b).1.nibbuf = b.nibbuf := rfl
@[simp] theorem raise_nibv : (raise N c b).1.nibv = b.nibv := rfl
@[simp] theorem raise_esr : (raise N c b).1.esr = b.esr ||| c.esrBit := rfl
@[simp] theorem raise_data : (raise N c b).2.data = N.zero := rfl
@[simp] theorem raise_stat :
    (raise N c b).2.stat = statWord (BitVec.ofNat 4 c.code) false false 0#16 := rfl

end

section
variable {ρ α : Type}

/-- A tabulated register file holds at `i` what the function gives at `i`. -/
theorem tabulate_get (f : Fin 19 → α) (i : Fin 19) : (tabulate f)[i] = f i := by
  fin_cases i <;> rfl

/-- The same for a numeral index. -/
@[simp] theorem tabulate_getElem (f : Fin 19 → α) (n : Nat) (h : n < 19) : (tabulate f)[n] = f ⟨n, h⟩ :=
  tabulate_get f ⟨n, h⟩

/-- A constant table is the register file of the reset values. -/
theorem tabulate_const (z : α) : tabulate (fun _ => z) = Vector.replicate 19 z := rfl

end

end Sys2Proof.Machine
end

