-- ==== Sys2Proof/Laws/Ops.lean ====
section
/-! SUPPORT. One lemma for each shared operation that says everything it can do. -/

namespace Sys2Proof.Machine

variable {ρ α : Type}

/-! ### The response word -/

/-- Bit `i` of the response status word. -/
theorem statWord_getLsbD (f : BitVec 4) (c y : Bool) (v : BitVec 16) (i : Nat) :
    (statWord f c y v).getLsbD i =
      if i < 4 then f.getLsbD i else if i = 4 then c else if i = 5 then y
      else if i < 16 then false else v.getLsbD (i - 16) := by
  unfold statWord
  simp only [BitVec.getLsbD_append, BitVec.getLsbD_ofBool]
  by_cases h4 : i < 4
  · simp [h4]
  · obtain ⟨j, rfl⟩ := Nat.exists_eq_add_of_le (Nat.le_of_not_lt h4)
    match j with
    | 0 => simp
    | 1 => simp
    | k + 2 =>
      have e1 : ¬ (4 + (k + 2) - 4 < 1) := by omega
      have e2 : ¬ (4 + (k + 2) - 4 - 1 < 1) := by omega
      have e3 : 4 + (k + 2) - 4 - 1 - 1 = k := by omega
      have e4 : 4 + (k + 2) - 16 = k - 10 := by omega
      have e5 : (4 + (k + 2) < 16) = (k < 10) := by apply propext; omega
      have e6 : ¬ (4 + (k + 2) = 4) := by omega
      have e7 : ¬ (4 + (k + 2) = 5) := by omega
      simp only [h4, e1, e2, e3, e4, e5, e6, e7, if_false]
      by_cases hk : k < 10 <;> simp [hk]

@[simp] theorem fault_statWord (f : BitVec 4) (c y : Bool) (v : BitVec 16) (x : α) :
    ({ stat := statWord f c y v, data := x } : Response α).fault = f := by
  apply BitVec.eq_of_getLsbD_eq
  intro i hi
  simp [Response.fault, statWord_getLsbD, hi]

@[simp] theorem cond_statWord (f : BitVec 4) (c y : Bool) (v : BitVec 16) (x : α) :
    ({ stat := statWord f c y v, data := x } : Response α).cond = c := by
  change (statWord f c y v).getLsbD 4 = c
  rw [statWord_getLsbD]; rfl

@[simp] theorem byteRdy_statWord (f : BitVec 4) (c y : Bool) (v : BitVec 16) (x : α) :
    ({ stat := statWord f c y v, data := x } : Response α).byteRdy = y := by
  change (statWord f c y v).getLsbD 5 = y
  rw [statWord_getLsbD]; rfl

@[simp] theorem reserved_statWord (f : BitVec 4) (c y : Bool) (v : BitVec 16) (x : α) :
    ({ stat := statWord f c y v, data := x } : Response α).reserved = 0#10 := by
  apply BitVec.eq_of_getLsbD_eq
  intro i hi
  have h1 : ¬ (6 + i < 4) := by omega
  have h2 : ¬ (6 + i = 4) := by omega
  have h3 : ¬ (6 + i = 5) := by omega
  have h4 : 6 + i < 16 := by omega
  simp only [Response.reserved, BitVec.getLsbD_extractLsb', statWord_getLsbD, h1, h2, h3, h4, if_false, if_true]
  simp

@[simp] theorem ival_statWord (f : BitVec 4) (c y : Bool) (v : BitVec 16) (x : α) :
    ({ stat := statWord f c y v, data := x } : Response α).ival = v := by
  apply BitVec.eq_of_getLsbD_eq
  intro i hi
  have h1 : ¬ (16 + i < 4) := by omega
  have h2 : ¬ (16 + i = 4) := by omega
  have h3 : ¬ (16 + i = 5) := by omega
  have h4 : ¬ (16 + i < 16) := by omega
  have h5 : 16 + i - 16 = i := by omega
  simp only [Response.ival, BitVec.getLsbD_extractLsb', statWord_getLsbD, h1, h2, h3, h4, h5, if_false]
  simp [hi]

/-- A faulting response is the fault code as a 32-bit number (30_encoding.md R58). -/
theorem raise_stat_eq (N : Numerics ρ α) (c : Cause) (b : Block α) :
    (raise N c b).2.stat = BitVec.ofNat 32 c.code := by
  cases c <;> rfl

/-- The code of a fault is never 0 in the field `FAULT` (60_exceptions.md R131). -/
theorem raise_fault (N : Numerics ρ α) (c : Cause) (b : Block α) :
    (raise N c b).2.fault = BitVec.ofNat 4 c.code := by
  simp [raise]

/-! ### The operands -/

/-- The index operand names an entry exactly when it is below nineteen. -/
theorem trackedIndex_of_lt {idx : Nat} (h : idx < 19) : trackedIndex idx = some ⟨idx, h⟩ := by
  simp [trackedIndex, h]

theorem trackedIndex_of_ge {idx : Nat} (h : 19 ≤ idx) : trackedIndex idx = none := by
  simp [trackedIndex, Nat.not_lt.mpr h]

/-! ### Ending a power command -/

/-- `finishPower` gives the computed response, or, where that is a NaN, a free NaN in its place. -/
theorem State.finishPower_cases (s : State) (d : Done F64) :
    (f64IsNan d.2.data = false ∧ s.finishPower d = s.finish d) ∨
    (f64IsNan d.2.data = true ∧
      s.finishPower d =
        { s.finish (d.1, { d.2 with data := freeNan s.nanCount }) with nanCount := s.nanCount + 1 }) := by
  unfold State.finishPower
  cases h : f64IsNan d.2.data
  · exact .inl ⟨rfl, by simp⟩
  · exact .inr ⟨rfl, by simp⟩

/-! ### The commands with more than one outcome -/

/-- What GZR and GZN do: index test, window test, then the power. -/
theorem readPower_cases (N : Numerics ρ α) (p : Params ρ α) (power : Fin 19 → α) (idx : Nat) (b : Block α) :
    (19 ≤ idx ∧ readPower N p power idx b = raise N .index b) ∨
    (idx < 19 ∧ b.win.length ≠ p.nSym ∧ readPower N p power idx b = raise N .notFull b) ∨
    (∃ h : idx < 19, b.win.length = p.nSym ∧
      readPower N p power idx b = respond b false false 0#16 (power ⟨idx, h⟩)) := by
  unfold readPower
  by_cases h : idx < 19
  · rw [trackedIndex_of_lt h]
    by_cases hw : b.win.length = p.nSym
    · exact .inr (.inr ⟨h, hw, by simp [Block.wfull, Block.wlen, hw]⟩)
    · exact .inr (.inl ⟨h, hw, by simp [Block.wfull, Block.wlen, hw]⟩)
  · exact .inl ⟨by omega, by rw [trackedIndex_of_ge (by omega)]⟩

/-- What WPUSH does: a finite sample is appended and the window slides, any other is refused. -/
theorem windowPush_cases (N : Numerics ρ α) (p : Params ρ α) (x : α) (b : Block α) :
    (N.finite x = true ∧
      windowPush N p x b = respond { b with win := slide p b.win x }
        (decide ((slide p b.win x).length = p.nSym)) false 0#16 N.zero) ∨
    (N.finite x = false ∧ windowPush N p x b = raise N .nonFin b) := by
  unfold windowPush
  cases h : N.finite x
  · exact .inr ⟨rfl, by simp⟩
  · exact .inl ⟨rfl, by rw [if_pos rfl]; rfl⟩

/-- What CALACC does, its three tests in order. -/
theorem calAccumulate_cases (N : Numerics ρ α) (p : Params ρ α) (b : Block α) :
    (b.win.length ≠ p.nSym ∧ calAccumulate N p b = raise N .notFull b) ∨
    (b.win.length = p.nSym ∧ b.calcnt = 65535#16 ∧ calAccumulate N p b = raise N .calFull b) ∨
    (b.win.length = p.nSym ∧ b.calcnt ≠ 65535#16 ∧
      (windowPowers N p b.win).toList.all N.finite = false ∧ calAccumulate N p b = raise N .nonFin b) ∨
    (b.win.length = p.nSym ∧ b.calcnt ≠ 65535#16 ∧
      (windowPowers N p b.win).toList.all N.finite = true ∧
      calAccumulate N p b =
        respond { b with ca := tabulate (fun i => N.fadd b.ca[i] (windowPowers N p b.win)[i]),
                         calcnt := b.calcnt + 1#16, win := [] }
          false false (b.calcnt + 1#16) N.zero) := by
  unfold calAccumulate
  by_cases hw : b.win.length = p.nSym
  · by_cases hc : b.calcnt = 65535#16
    · exact .inr (.inl ⟨hw, hc, by simp [Block.wfull, Block.wlen, hw, hc]⟩)
    · cases hf : (windowPowers N p b.win).toList.all N.finite
      · exact .inr (.inr (.inl ⟨hw, hc, rfl, by simp [Block.wfull, Block.wlen, hw, hc, hf]⟩))
      · exact .inr (.inr (.inr ⟨hw, hc, rfl, by simp [Block.wfull, Block.wlen, hw, hc, hf]⟩))
  · exact .inl ⟨hw, by simp [Block.wfull, Block.wlen, hw]⟩

/-- All nineteen powers are finite exactly when each is. -/
theorem windowPowers_all (N : Numerics ρ α) (p : Params ρ α) (w : List α) :
    (windowPowers N p w).toList.all N.finite = true ↔ ∀ i : Fin 19, N.finite (rawPower N p w i) = true := by
  constructor
  · intro h i
    rw [List.all_eq_true] at h
    have hm : (windowPowers N p w)[i] ∈ (windowPowers N p w).toList := by simp
    have hi := h _ hm
    rwa [windowPowers, tabulate_get] at hi
  · intro h
    rw [List.all_eq_true]
    intro x hx
    obtain ⟨n, hn, rfl⟩ := List.getElem_of_mem hx
    have hn' : n < 19 := by simpa using hn
    simp only [Vector.getElem_toList, windowPowers, tabulate_getElem]
    exact h ⟨n, hn'⟩

/-- What CALFIN does: success from four windows on, failure below. -/
theorem calFinish_cases (N : Numerics ρ α) (b : Block α) :
    (4 ≤ b.calcnt.toNat ∧
      calFinish N b =
        respond { b with nf := tabulate (fun i => N.fdiv b.ca[i] (N.toNum b.calcnt.toNat)), nfen := true }
          true false b.calcnt N.zero) ∨
    (b.calcnt.toNat < 4 ∧ calFinish N b = respond { b with nfen := false } false false b.calcnt N.zero) := by
  unfold calFinish
  by_cases h : 4 ≤ b.calcnt.toNat
  · exact .inl ⟨h, by simp [h]⟩
  · exact .inr ⟨by omega, by simp [h]⟩

/-- What RDNF and RDFT do with their index. -/
theorem readNoise_cases (N : Numerics ρ α) (idx : Nat) (b : Block α) :
    (19 ≤ idx ∧ readNoise N idx b = raise N .index b) ∨
    (∃ h : idx < 19, readNoise N idx b = respond b b.nfen false 0#16 b.nf[idx]) := by
  unfold readNoise
  by_cases h : idx < 19
  · exact .inr ⟨h, by rw [trackedIndex_of_lt h]; rfl⟩
  · exact .inl ⟨by omega, by rw [trackedIndex_of_ge (by omega)]⟩

theorem readFreq_cases [Add ρ] [Mul ρ] [NatCast ρ] (N : Numerics ρ α) (p : Params ρ α) (idx : Nat) (b : Block α) :
    (19 ≤ idx ∧ readFreq N p idx b = raise N .index b) ∨
    (∃ h : idx < 19, readFreq N p idx b = respond b false false 0#16 (ft N p ⟨idx, h⟩)) := by
  unfold readFreq
  by_cases h : idx < 19
  · exact .inr ⟨h, by rw [trackedIndex_of_lt h]⟩
  · exact .inl ⟨by omega, by rw [trackedIndex_of_ge (by omega)]⟩

/-- Entry `k` of the nibble powers is the normalised power at the tone of nibble `k`. -/
theorem nibblePowers_get (N : Numerics ρ α) (p : Params ρ α) (b : Block α) (k : Fin 16) :
    (nibblePowers N p b)[k] = normPower N p b ⟨3 + k.val, by omega⟩ := by
  fin_cases k <;> rfl

/-- What CLS does: the window test, then an invalid symbol, a high nibble kept, or a byte completed. -/
theorem classifySymbol_cases (N : Numerics ρ α) (p : Params ρ α) (b : Block α) :
    (b.win.length ≠ p.nSym ∧ classifySymbol N p b = raise N .notFull b) ∨
    (b.win.length = p.nSym ∧ classify N (nibblePowers N p b) = none ∧
      classifySymbol N p b = respond b false false 0#16 N.zero) ∨
    (∃ k, b.win.length = p.nSym ∧ classify N (nibblePowers N p b) = some k ∧ b.nibv = false ∧
      classifySymbol N p b =
        respond { b with nibbuf := BitVec.ofNat 4 k.val, nibv := true } true false
          (0#4 ++ BitVec.ofNat 4 k.val ++ 0#8) N.zero) ∨
    (∃ k, b.win.length = p.nSym ∧ classify N (nibblePowers N p b) = some k ∧ b.nibv = true ∧
      classifySymbol N p b =
        respond { b with nibbuf := 0#4, nibv := false } true true
          (0#4 ++ BitVec.ofNat 4 k.val ++ (b.nibbuf ++ BitVec.ofNat 4 k.val : Byte)) N.zero) := by
  unfold classifySymbol
  by_cases hw : b.win.length = p.nSym
  · cases hc : classify N (nibblePowers N p b) with
    | none => exact .inr (.inl ⟨hw, rfl, by simp [Block.wfull, Block.wlen, hw]⟩)
    | some k =>
      cases hv : b.nibv
      · exact .inr (.inr (.inl ⟨k, hw, rfl, rfl, by simp [Block.wfull, Block.wlen, hw, assemble, hv]⟩))
      · exact .inr (.inr (.inr ⟨k, hw, rfl, rfl, by simp [Block.wfull, Block.wlen, hw, assemble, hv]⟩))
  · exact .inl ⟨hw, by simp [Block.wfull, Block.wlen, hw]⟩

/-! ### Every command -/

/-- Every command raises a fault, not the decoder's, or completes with `FAULT = 0` (60_exceptions.md R130). -/
theorem blockStep_cases [Add ρ] [Mul ρ] [NatCast ρ] (N : Numerics ρ α) (p : Params ρ α) (i : Instr) (x : α) (b : Block α) :
    (∃ c : Cause, c ≠ .illegal ∧ blockStep N p i x b = raise N c b) ∨
    (∃ b' cond byteRdy ival data, blockStep N p i x b = respond b' cond byteRdy ival data) := by
  cases i <;> simp only [blockStep]
  case gzr n =>
    rcases readPower_cases N p (rawPower N p b.win) n b with ⟨_, e⟩ | ⟨_, _, e⟩ | ⟨_, _, e⟩ <;>
      simp only [readRaw, e] <;> first | exact .inl ⟨_, by decide, rfl⟩ | exact .inr ⟨_, _, _, _, _, rfl⟩
  case gzn n =>
    rcases readPower_cases N p (normPower N p b) n b with ⟨_, e⟩ | ⟨_, _, e⟩ | ⟨_, _, e⟩ <;>
      simp only [readNorm, e] <;> first | exact .inl ⟨_, by decide, rfl⟩ | exact .inr ⟨_, _, _, _, _, rfl⟩
  case wpush =>
    rcases windowPush_cases N p x b with ⟨_, e⟩ | ⟨_, e⟩ <;> rw [e]
    · exact .inr ⟨_, _, _, _, _, rfl⟩
    · exact .inl ⟨_, by decide, rfl⟩
  case calacc =>
    rcases calAccumulate_cases N p b with ⟨_, e⟩ | ⟨_, _, e⟩ | ⟨_, _, _, e⟩ | ⟨_, _, _, e⟩ <;> rw [e] <;>
      first | exact .inl ⟨_, by decide, rfl⟩ | exact .inr ⟨_, _, _, _, _, rfl⟩
  case calfin => rcases calFinish_cases N b with ⟨_, e⟩ | ⟨_, e⟩ <;> rw [e] <;> exact .inr ⟨_, _, _, _, _, rfl⟩
  case rdnf n =>
    rcases readNoise_cases N n b with ⟨_, e⟩ | ⟨_, e⟩ <;> rw [e]
    · exact .inl ⟨_, by decide, rfl⟩
    · exact .inr ⟨_, _, _, _, _, rfl⟩
  case rdft n =>
    rcases readFreq_cases N p n b with ⟨_, e⟩ | ⟨_, e⟩ <;> rw [e]
    · exact .inl ⟨_, by decide, rfl⟩
    · exact .inr ⟨_, _, _, _, _, rfl⟩
  case cls =>
    rcases classifySymbol_cases N p b with ⟨_, e⟩ | ⟨_, _, e⟩ | ⟨_, _, _, _, e⟩ | ⟨_, _, _, _, e⟩ <;> rw [e] <;>
      first | exact .inl ⟨_, by decide, rfl⟩ | exact .inr ⟨_, _, _, _, _, rfl⟩
  all_goals exact .inr ⟨_, _, _, _, _, rfl⟩

/-- An infinity or a NaN is answered only by GZR and GZN, and by RDNF where the register it reads holds one
(30_encoding.md R57, 42_calibration.md R90; log entry 10). -/
theorem blockStep_data (p : Params ℚ F64) (i : Instr) (x : F64) (b : Block F64) :
    f64Finite (blockStep binary64 p i x b).2.data = true ∨ (∃ n, i = .gzr n ∨ i = .gzn n) ∨
    ∃ (n : Nat) (h : n < 19), i = .rdnf n ∧ f64Finite b.nf[n] = false := by
  have zero_finite : f64Finite binary64.zero = true := by decide +kernel
  cases i
  case gzr n => exact .inr (.inl ⟨n, .inl rfl⟩)
  case gzn n => exact .inr (.inl ⟨n, .inr rfl⟩)
  case rdnf n =>
    simp only [blockStep]
    rcases readNoise_cases binary64 n b with ⟨_, e⟩ | ⟨h, e⟩ <;> rw [e]
    · exact .inl zero_finite
    · cases hf : f64Finite b.nf[n]
      · exact .inr (.inr ⟨n, h, rfl, hf⟩)
      · exact .inl hf
  case rdft n =>
    simp only [blockStep]
    rcases readFreq_cases binary64 p n b with ⟨_, e⟩ | ⟨_, e⟩ <;> rw [e]
    · exact .inl zero_finite
    · exact .inl (f64Lit_finite _)
  case wpush => exact .inl (by
    simp only [blockStep]
    rcases windowPush_cases binary64 p x b with ⟨_, e⟩ | ⟨_, e⟩ <;> rw [e] <;> exact zero_finite)
  case calacc => exact .inl (by
    simp only [blockStep]
    rcases calAccumulate_cases binary64 p b with ⟨_, e⟩ | ⟨_, _, e⟩ | ⟨_, _, _, e⟩ | ⟨_, _, _, e⟩ <;> rw [e] <;>
      exact zero_finite)
  case calfin => exact .inl (by
    simp only [blockStep]
    rcases calFinish_cases binary64 b with ⟨_, e⟩ | ⟨_, e⟩ <;> rw [e] <;> exact zero_finite)
  case cls => exact .inl (by
    simp only [blockStep]
    rcases classifySymbol_cases binary64 p b with ⟨_, e⟩ | ⟨_, _, e⟩ | ⟨_, _, _, _, e⟩ | ⟨_, _, _, _, e⟩ <;> rw [e] <;>
      exact zero_finite)
  all_goals exact .inl zero_finite

/-- The meaning of an instruction ends the command function's effect, with a free NaN in place of a NaN power. -/
theorem exec_eq_blockStep (i : Instr) (s : State) :
    exec i s = .next (s.finish (blockStep binary64 s.params i i.data s.toBlock)) ∨
    ((∃ n, i = .gzr n ∨ i = .gzn n) ∧
      exec i s = .next (s.finishPower (blockStep binary64 s.params i i.data s.toBlock))) := by
  cases i
  case gzr n => exact .inr ⟨⟨n, .inl rfl⟩, rfl⟩
  case gzn n => exact .inr ⟨⟨n, .inr rfl⟩, rfl⟩
  all_goals exact .inl rfl

/-! ### The step -/

/-- What a step does: nothing presented, a hardware reset, an instruction, or an illegal word. -/
theorem step_cases (s : State) :
    (s.inputs = [] ∧ step s = .next s) ∨
    (∃ c rest, s.inputs = .reset c :: rest ∧ step s = .next s.takeInput.hardReset) ∨
    (∃ c rest i, s.inputs = .command c :: rest ∧ decode c.word c.data = .ok i ∧ step s = exec i s.takeInput) ∨
    (∃ c rest e, s.inputs = .command c :: rest ∧ decode c.word c.data = .error e ∧
      step s = .next s.takeInput.answerIllegal) := by
  unfold step
  cases h : s.inputs with
  | nil => exact .inl ⟨rfl, rfl⟩
  | cons e rest =>
    cases e with
    | reset c => exact .inr (.inl ⟨c, rest, rfl, rfl⟩)
    | command c =>
      cases hd : decode c.word c.data with
      | ok i => exact .inr (.inr (.inl ⟨c, rest, i, rfl, hd, by simp [hd]⟩))
      | error e => exact .inr (.inr (.inr ⟨c, rest, e, rfl, hd, by simp [hd]⟩))

end Sys2Proof.Machine
end

