-- ==== Sys2Proof/Laws/Flags.lean ====
section
/-! SUPPORT. The fields of the status view (10_state.md R29). -/

namespace Sys2Proof.Machine

variable {ρ α : Type}

/-- Bit `i` of `STATUS`. -/
theorem statusWord_getLsbD (p : Params ρ α) (b : Block α) (i : Nat) :
    (statusWord p b).getLsbD i =
      if i = 0 then b.wfull p else if i = 1 then b.nfen else if i = 2 then b.nibv else if i = 3 then false
      else if i < 8 then b.nibbuf.getLsbD (i - 4) else b.esr.getLsbD (i - 8) := by
  unfold statusWord
  simp only [BitVec.getLsbD_append, BitVec.getLsbD_ofBool]
  match i with
  | 0 => simp
  | 1 => simp
  | 2 => simp
  | 3 => simp
  | n + 4 =>
    have e1 : n + 4 - 1 - 1 - 1 - 1 = n := by omega
    have e2 : n + 4 - 8 = n - 4 := by omega
    have e3 : (n + 4 < 8) = (n < 4) := by apply propext; omega
    have c1 : ¬ (n + 4 < 1) := by omega
    have c2 : ¬ (n + 4 - 1 < 1) := by omega
    have c3 : ¬ (n + 4 - 1 - 1 < 1) := by omega
    have c4 : ¬ (n + 4 - 1 - 1 - 1 < 1) := by omega
    have d0 : ¬ (n + 4 = 0) := by omega
    have d1 : ¬ (n + 4 = 1) := by omega
    have d2 : ¬ (n + 4 = 2) := by omega
    have d3 : ¬ (n + 4 = 3) := by omega
    simp only [c1, c2, c3, c4, d0, d1, d2, d3, e1, e2, e3, if_false, Nat.add_sub_cancel]

end Sys2Proof.Machine
end

