-- ==== Sys2Proof/Laws/Numerics.lean ====
section
/-! SUPPORT. The primitives of the two number types, by name. -/

namespace Sys2Proof.Machine

section
variable (a b : F64) (n : Nat) (q : ℚ)

@[simp] theorem binary64_zero : binary64.zero = 0#64 := rfl
@[simp] theorem binary64_fadd : binary64.fadd a b = f64Add a b := rfl
@[simp] theorem binary64_fsub : binary64.fsub a b = f64Sub a b := rfl
@[simp] theorem binary64_fmul : binary64.fmul a b = f64Mul a b := rfl
@[simp] theorem binary64_fdiv : binary64.fdiv a b = f64Div a b := rfl
@[simp] theorem binary64_fgt : binary64.fgt a b = f64Gt a b := rfl
@[simp] theorem binary64_fge : binary64.fge a b = f64Ge a b := rfl
@[simp] theorem binary64_feq : binary64.feq a b = f64Eq a b := rfl
@[simp] theorem binary64_finite : binary64.finite a = f64Finite a := rfl
@[simp] theorem binary64_toNum : binary64.toNum n = f64OfNat n := rfl
@[simp] theorem binary64_lit : binary64.lit q = f64Lit q := rfl
@[simp] theorem binary64_nearest : binary64.nearest q = f64Lit q := rfl

end

section
variable (a b : ℝ) (n : Nat) (q : ℚ)

@[simp] theorem reals_zero : reals.zero = 0 := rfl
@[simp] theorem reals_fadd : reals.fadd a b = a + b := rfl
@[simp] theorem reals_fsub : reals.fsub a b = a - b := rfl
@[simp] theorem reals_fmul : reals.fmul a b = a * b := rfl
@[simp] theorem reals_fdiv : reals.fdiv a b = a / b := rfl
@[simp] theorem reals_fgt : reals.fgt a b = true ↔ b < a := by simp [reals]
@[simp] theorem reals_fge : reals.fge a b = true ↔ b ≤ a := by simp [reals]
@[simp] theorem reals_feq : reals.feq a b = true ↔ a = b := by simp [reals]
@[simp] theorem reals_finite : reals.finite a = true := rfl
@[simp] theorem reals_toNum : reals.toNum n = (n : ℝ) := rfl
@[simp] theorem reals_lit : reals.lit q = (q : ℝ) := rfl
@[simp] theorem reals_nearest : reals.nearest a = a := rfl

end

section
variable (a b : F64) (n : Nat) (q : ℚ) (x : ℝ)

@[simp] theorem binary64Real_zero : binary64Real.zero = 0#64 := rfl
@[simp] theorem binary64Real_fadd : binary64Real.fadd a b = f64Add a b := rfl
@[simp] theorem binary64Real_fsub : binary64Real.fsub a b = f64Sub a b := rfl
@[simp] theorem binary64Real_fmul : binary64Real.fmul a b = f64Mul a b := rfl
@[simp] theorem binary64Real_fdiv : binary64Real.fdiv a b = f64Div a b := rfl
@[simp] theorem binary64Real_fgt : binary64Real.fgt a b = f64Gt a b := rfl
@[simp] theorem binary64Real_fge : binary64Real.fge a b = f64Ge a b := rfl
@[simp] theorem binary64Real_feq : binary64Real.feq a b = f64Eq a b := rfl
@[simp] theorem binary64Real_finite : binary64Real.finite a = f64Finite a := rfl
@[simp] theorem binary64Real_toNum : binary64Real.toNum n = f64OfNat n := rfl
@[simp] theorem binary64Real_lit : binary64Real.lit q = f64Lit q := rfl
@[simp] theorem binary64Real_nearest : binary64Real.nearest x = f64Nearest x := rfl

end

/-! ### Rational parameters as real ones -/

section
variable {α : Type} (p : Params ℚ α)

@[simp] theorem toReal_nSym : p.toReal.nSym = p.nSym := rfl
@[simp] theorem toReal_fs : p.toReal.fs = p.fs := rfl
@[simp] theorem toReal_fPreA : p.toReal.fPreA = p.fPreA := rfl
@[simp] theorem toReal_fPreB : p.toReal.fPreB = p.fPreB := rfl
@[simp] theorem toReal_fStart : p.toReal.fStart = p.fStart := rfl
@[simp] theorem toReal_fNib0 : p.toReal.fNib0 = p.fNib0 := rfl
@[simp] theorem toReal_fStep : p.toReal.fStep = p.fStep := rfl
@[simp] theorem toReal_eps : p.toReal.eps = p.eps := rfl
@[simp] theorem toReal_coef : p.toReal.coef = p.coef := rfl

/-- The exact frequencies are the same real numbers (00_scope.md R10). -/
theorem exactFreq_toReal (i : Fin 19) : exactFreq p.toReal i = ((exactFreq p i : ℚ) : ℝ) := by
  unfold exactFreq
  split <;> simp

end

/-- The parameters with the exact coefficient table satisfy 00_scope.md R10 under `REAL`. -/
theorem exactParams_coefExact {α : Type} (p : Params ℝ α) : CoefExact (exactParams p) := by
  intro i
  simp only [coef, exactParams, omega, ft, reals_nearest]
  rw [tabulate_get]
  rfl

end Sys2Proof.Machine
end

