-- ==== Sys2Proof/Laws/PerInstr.lean ====
section
/-! SUPPORT. Facts about every instruction as syntax, one lemma per constructor. -/

namespace Sys2Proof.Laws.OpcodeByte

/-- The word a well-formed instruction is presented as has the instruction's opcode in bits 31:24 and its operand in the
bits below (30_encoding.md R51, R53). -/
def Statement (i : Instr) : Prop :=
  i.wellFormed = true → opcodeByte (encode i).word = i.opcode ∧ operandBits (encode i).word = i.operand

/-- An opcode byte and an operand below `2^24` come back out of the word they make. -/
theorem fields_of_word {op n : Nat} (ho : op < 256) (hn : n < 2 ^ 24) :
    opcodeByte (BitVec.ofNat 32 (op * 2 ^ 24 + n)) = op ∧ operandBits (BitVec.ofNat 32 (op * 2 ^ 24 + n)) = n := by
  unfold opcodeByte operandBits
  rw [BitVec.toNat_ofNat]
  omega

/-- The statement follows from the bounds of the two fields. -/
theorem of_bounds {i : Instr} (ho : i.opcode < 256) (hn : i.wellFormed = true → i.operand < 2 ^ 24) : Statement i :=
  fun h => fields_of_word ho (hn h)

theorem nop : Statement .nop := of_bounds (by simp [Instr.opcode]) (fun _ => by simp [Instr.operand])
theorem srst : Statement .srst := of_bounds (by simp [Instr.opcode]) (fun _ => by simp [Instr.operand])
theorem dclr : Statement .dclr := of_bounds (by simp [Instr.opcode]) (fun _ => by simp [Instr.operand])
theorem rdst : Statement .rdst := of_bounds (by simp [Instr.opcode]) (fun _ => by simp [Instr.operand])
theorem wclr : Statement .wclr := of_bounds (by simp [Instr.opcode]) (fun _ => by simp [Instr.operand])
theorem wpush (x : F64) : Statement (.wpush x) := of_bounds (by simp [Instr.opcode]) (fun _ => by simp [Instr.operand])
theorem calclr : Statement .calclr := of_bounds (by simp [Instr.opcode]) (fun _ => by simp [Instr.operand])
theorem calacc : Statement .calacc := of_bounds (by simp [Instr.opcode]) (fun _ => by simp [Instr.operand])
theorem calfin : Statement .calfin := of_bounds (by simp [Instr.opcode]) (fun _ => by simp [Instr.operand])
theorem nfdis : Statement .nfdis := of_bounds (by simp [Instr.opcode]) (fun _ => by simp [Instr.operand])
theorem cls : Statement .cls := of_bounds (by simp [Instr.opcode]) (fun _ => by simp [Instr.operand])
theorem nclr : Statement .nclr := of_bounds (by simp [Instr.opcode]) (fun _ => by simp [Instr.operand])
theorem ckclr : Statement .ckclr := of_bounds (by simp [Instr.opcode]) (fun _ => by simp [Instr.operand])
theorem ckrd : Statement .ckrd := of_bounds (by simp [Instr.opcode]) (fun _ => by simp [Instr.operand])
theorem gzr (idx : Nat) : Statement (.gzr idx) :=
  of_bounds (by simp [Instr.opcode]) (by simp only [Instr.wellFormed, Instr.operand, decide_eq_true_eq]; omega)
theorem gzn (idx : Nat) : Statement (.gzn idx) :=
  of_bounds (by simp [Instr.opcode]) (by simp only [Instr.wellFormed, Instr.operand, decide_eq_true_eq]; omega)
theorem rdnf (idx : Nat) : Statement (.rdnf idx) :=
  of_bounds (by simp [Instr.opcode]) (by simp only [Instr.wellFormed, Instr.operand, decide_eq_true_eq]; omega)
theorem rdft (idx : Nat) : Statement (.rdft idx) :=
  of_bounds (by simp [Instr.opcode]) (by simp only [Instr.wellFormed, Instr.operand, decide_eq_true_eq]; omega)
theorem ckadd (imm8 : Nat) : Statement (.ckadd imm8) :=
  of_bounds (by simp [Instr.opcode]) (by simp only [Instr.wellFormed, Instr.operand, decide_eq_true_eq]; omega)
theorem ckcmp (imm16 : Nat) : Statement (.ckcmp imm16) :=
  of_bounds (by simp [Instr.opcode]) (by simp only [Instr.wellFormed, Instr.operand, decide_eq_true_eq]; omega)

end Sys2Proof.Laws.OpcodeByte
end

