-- ==== Sys2Proof/Tests/Slice0.lean ====
section
/-! SUPPORT. Tests. Expected values are the vectors and examples of spec/ (95_test_vectors.md and the family files); the
`witness_…` theorems show that the hypotheses of each obligation can be met. -/

-- Theorems are checked one after another: many kernel evaluations at once would exhaust the checker's threads.
set_option Elab.async false

namespace Sys2Proof.Tests

open Sys2Proof Sys2Proof.Machine

/-! ### Small states -/

/-- `1.0`. -/
def one : F64 := 0x3FF0000000000000#64

/-- `+infinity`. -/
def inf : F64 := 0x7FF0000000000000#64

/-- Window `Z`: all `+0`. -/
def winZ : List F64 := List.replicate 64 0#64

/-- Window `T2K`: `1, 0, -1, 0` repeated 16 times. -/
def winT2K : List F64 := (List.replicate 16 [one, 0#64, 0xBFF0000000000000#64, 0#64]).flatten

/-- Window `I0`: `1.0`, then zeros. -/
def winI0 : List F64 := one :: List.replicate 63 0#64

/-- The reset state with a window loaded. -/
def loaded (w : List F64) : State := { State.reset with win := w }

/-- The reset state of an instance with TC1's tables and two-sample windows, with a window loaded. Over the window `1, -1`
the exact power at tracked index `i` is `2 - COEF[i]`: 2 at index 5, whose coefficient is 0, and the largest at index 18. -/
def loaded2 (w : List F64) : State := { State.resetWith { Config.tc1 with nSym := 2 } with win := w }

/-- The window `1, -1`. -/
def win2 : List F64 := [one, 0xBFF0000000000000#64]

/-- Two samples of the largest finite value. -/
def winMax : List F64 := [0x7FEFFFFFFFFFFFFF#64, 0x7FEFFFFFFFFFFFFF#64]

/-- The reset state with one command presented. -/
def presented (w : Word) (d : F64) : State := { State.reset with inputs := [.command ⟨w, d⟩] }

/-- The state a step leads to (the first state itself if there is none). -/
def next (s : State) (o : Host.Outcome State Fault Refusal) : State :=
  match o with
  | .next t => t
  | .fault _ => s
  | .refused _ => s

/-- The latest response's status word and data. -/
def answer (s : State) (o : Host.Outcome State Fault Refusal) : Option (Word × F64) :=
  (next s o).out.head?.map (fun r => (r.stat, r.data))

/-! ### Well-formed instructions (30_encoding.md R52, R60): one ill-formed term for each check -/

theorem test_illformed_gzr : Instr.wellFormed (.gzr 32) = false := by decide
theorem test_illformed_gzn : Instr.wellFormed (.gzn 32) = false := by decide
theorem test_illformed_rdnf : Instr.wellFormed (.rdnf 32) = false := by decide
theorem test_illformed_rdft : Instr.wellFormed (.rdft 32) = false := by decide
theorem test_illformed_ckadd : Instr.wellFormed (.ckadd 256) = false := by decide
theorem test_illformed_ckcmp : Instr.wellFormed (.ckcmp 65536) = false := by decide
theorem test_wellformed_gzr_19 : Instr.wellFormed (.gzr 19) = true := by decide

/-! ### Decoding: each word written out from 30_encoding.md R51, R53 (opcode, then the operand field) -/

theorem test_decode_nop : decode 0b00000000000000000000000000000000#32 one = .ok .nop := by rfl
theorem test_decode_srst : decode 0b00000001000000000000000000000000#32 one = .ok .srst := by rfl
theorem test_decode_dclr : decode 0b00000010000000000000000000000000#32 one = .ok .dclr := by rfl
theorem test_decode_rdst : decode 0b00000011000000000000000000000000#32 one = .ok .rdst := by rfl
theorem test_decode_wclr : decode 0b00010000000000000000000000000000#32 one = .ok .wclr := by rfl
theorem test_decode_wpush : decode 0b00010001000000000000000000000000#32 one = .ok (.wpush one) := by rfl
theorem test_decode_gzr : decode 0b00100000000000000000000000000101#32 one = .ok (.gzr 5) := by rfl
theorem test_decode_gzn : decode 0b00100001000000000000000000010010#32 one = .ok (.gzn 18) := by rfl
theorem test_decode_calclr : decode 0b00110000000000000000000000000000#32 one = .ok .calclr := by rfl
theorem test_decode_calacc : decode 0b00110001000000000000000000000000#32 one = .ok .calacc := by rfl
theorem test_decode_calfin : decode 0b00110010000000000000000000000000#32 one = .ok .calfin := by rfl
theorem test_decode_nfdis : decode 0b00110011000000000000000000000000#32 one = .ok .nfdis := by rfl
theorem test_decode_rdnf : decode 0b00110100000000000000000000000101#32 one = .ok (.rdnf 5) := by rfl
theorem test_decode_cls : decode 0b01000000000000000000000000000000#32 one = .ok .cls := by rfl
theorem test_decode_nclr : decode 0b01000001000000000000000000000000#32 one = .ok .nclr := by rfl
theorem test_decode_rdft : decode 0b01000010000000000000000000001101#32 one = .ok (.rdft 13) := by rfl
theorem test_decode_ckclr : decode 0b01010000000000000000000000000000#32 one = .ok .ckclr := by rfl
theorem test_decode_ckadd : decode 0b01010001000000000000000001001101#32 one = .ok (.ckadd 0x4D) := by rfl
theorem test_decode_ckrd : decode 0b01010010000000000000000000000000#32 one = .ok .ckrd := by rfl
theorem test_decode_ckcmp : decode 0b01010011000000000000000100111011#32 one = .ok (.ckcmp 0x013B) := by rfl
/-- V43: CLS with a reserved bit. -/
theorem test_decode_reserved : decode 0x40000001#32 0#64 = .error (.reservedBits 0x40) := by rfl
/-- V42: the all-ones word. -/
theorem test_decode_all_ones : decode 0xFFFFFFFF#32 0#64 = .error (.unknownOpcode 0xFF) := by rfl
theorem test_table_word : decodeTableWord 32 0x4200000D = some (.rdft 13) := by rfl

/-! ### Text (30_encoding.md R60, R61) -/

theorem test_text_gzn : assembleLine 64 "GZN 18 ; a comment" = .ok [.gzn 18] := by decide +kernel
theorem test_text_hex : assembleLine 64 "CKCMP 0x013B" = .ok [.ckcmp 0x013B] := by decide +kernel
theorem test_text_real : assembleLine 64 "WPUSH 0.25" = .ok [.wpush 0x3FD0000000000000#64] := by decide +kernel
theorem test_text_bits : assembleLine 64 "WPUSH bits:0x7FF0000000000000" = .ok [.wpush inf] := by decide +kernel
theorem test_text_exponent : assembleLine 64 "WPUSH 1e-9" = .ok [.wpush 0x3E112E0BE826D695#64] := by decide +kernel
theorem test_text_range : assembleLine 64 "CKADD 256" = .error .outOfRange := by decide +kernel
theorem test_text_txbyte : assembleLine 64 "TXBYTE 0x2A" = .ok [.rdft 5, .rdft 13] := by decide +kernel
theorem test_text_ckcmpb : assembleLine 64 "CKCMPB 0x01, 0x3B" = .ok [.ckcmp 0x013B] := by decide +kernel
theorem test_text_wload :
    assembleLine 2 "WLOAD 1, -1" = .ok [.wclr, .wpush one, .wpush 0xBFF0000000000000#64] := by decide +kernel
theorem test_text_wload_short : assembleLine 3 "WLOAD 1, -1" = .error .outOfRange := by decide +kernel
theorem test_pseudo_calwin : (Pseudo.calwin [one]).expand = [.wclr, .wpush one, .calacc] := by decide
theorem test_pseudo_cksum_empty : (Pseudo.cksum []).wellFormed 64 = false := by decide
theorem test_pseudo_tone_range : (Pseudo.tone 16).wellFormed 64 = false := by decide

/-! ### binary64 -/

/-- 00_scope.md R10. -/
theorem test_knf : knf binary64 = 0x3FEB333333333333#64 := by decide +kernel
/-- 95_test_vectors.md V20c: `fdiv(126, 125)` is `KCONF`. -/
theorem test_fdiv : f64Div (f64OfNat 126) (f64OfNat 125) = 0x3FF020C49BA5E354#64 := by decide +kernel
/-- 95_test_vectors.md section 4, V10f step by step: `fmul(5.578125, 0.85)`. -/
theorem test_fmul : f64Mul 0x4016500000000000#64 0x3FEB333333333333#64 = 0x4012F73333333333#64 := by decide +kernel
/-- 00_scope.md R9, R10: the NUM nearest a number beyond the binary64 range is the largest finite value. -/
theorem test_lit_beyond_range : f64Lit (2 ^ 1024) = 0x7FEFFFFFFFFFFFFF#64 := by decide +kernel
theorem test_fsub_same_is_plus_zero : f64Sub one one = 0#64 := by decide +kernel
theorem test_fadd_ties_to_even : f64Add one 0x3CA0000000000000#64 = one := by decide +kernel
theorem test_fmul_overflows : f64Mul 0x7FE0000000000000#64 0x4000000000000000#64 = inf := by decide +kernel
theorem test_nan_is_not_equal : f64Eq f64Nan f64Nan = false := by decide +kernel
theorem test_zeros_are_equal : f64Eq 0#64 0x8000000000000000#64 = true := by decide +kernel

/-! ### Commands, each one step, on the vectors of 95_test_vectors.md -/

/-- TC1 satisfies the constraints of 00_scope.md R6, R7. -/
theorem test_tc1_wellFormed : Config.tc1.wellFormed := by
  unfold Params.wellFormed
  decide +kernel

/-- V40. -/
theorem test_nop : answer .reset (exec .nop .reset) = some (0x00000000#32, 0#64) := by decide +kernel

/-- V39: every element of the reset state, from a state with some of each. -/
theorem test_srst : (next .reset (exec .srst { State.reset with
    win := winZ, nfen := true, nibv := true, nibbuf := 2#4, esr := 2#8, ck := 7#16 })).toBlock = State.reset.toBlock := by
  decide +kernel

/-- V37. -/
theorem test_dclr : (fun t : State => (t.ck, t.nibv, t.nibbuf, t.nfen, t.win.length))
    (next .reset (exec .dclr { State.reset with ck := 0x013B#16, nibv := true, nibbuf := 4#4, nfen := true, win := winZ }))
      = (0#16, false, 0#4, true, 64) := by decide +kernel

/-- V39: `STATUS = 0x0227`. -/
theorem test_rdst : answer .reset (exec .rdst { State.reset with
    win := winZ, nfen := true, nibv := true, nibbuf := 2#4, esr := 2#8 }) = some (0x02270000#32, 0#64) := by
  decide +kernel

/-- V4. -/
theorem test_wclr : (next .reset (exec .wclr (loaded winZ))).win = [] := by decide

/-- V2, V3: the push that fills the window, and a full window slides. -/
theorem test_wpush : answer .reset (exec (.wpush one) (loaded (winZ.take 63))) = some (0x00000010#32, 0#64) ∧
    (next .reset (exec (.wpush one) (loaded winI0))).win = winZ.take 63 ++ [one] := by decide +kernel

/-- V4a: an infinity is refused. -/
theorem test_wpush_infinity : answer .reset (exec (.wpush inf) .reset) = some (0x00000004#32, 0#64) := by decide +kernel

/-- V8: an impulse in the oldest position, 63 turns of rounding. -/
theorem test_gzr : answer .reset (exec (.gzr 0) (loaded winI0)) = some (0#32, 0x3FEFFFFFFFFFFFF6#64) := by
  decide +kernel

/-- V10c: the index test comes before the window test. -/
theorem test_gzn_index : answer .reset (exec (.gzn 31) .reset) = some (0x00000002#32, 0#64) := by decide +kernel

/-- V10f: `GZN 5` on `T2K` with `NF[5] = 5.578125`. -/
theorem test_gzn : answer .reset (exec (.gzn 5) { loaded winT2K with
    nfen := true, nf := Vector.replicate 19 0x4016500000000000#64 }) = some (0#32, 0x406AFF07A26E1ADC#64) := by
  decide +kernel

/-- V18. -/
theorem test_calclr : (fun t : State => (t.calcnt, t.ca[(5 : Fin 19)], t.nfen)) (next .reset (exec .calclr
    { State.reset with calcnt := 4#16, ca := Vector.replicate 19 one, nfen := true })) = (0#16, 0#64, true) := by
  decide +kernel

/-- 42_calibration.md R87: one more window is counted, the window is consumed, and the power 2.0 is added to the 8.0 of
entry 5. -/
theorem test_calacc : (fun t : State => (t.calcnt, t.win, t.ca[(5 : Fin 19)])) (next .reset (exec .calacc
    { loaded2 win2 with calcnt := 7#16, ca := Vector.replicate 19 0x4020000000000000#64 })) =
      (8#16, [], 0x4024000000000000#64) := by decide +kernel

/-- V19a. -/
theorem test_calacc_full_counter : answer .reset (exec .calacc { loaded winZ with calcnt := 65535#16 }) =
    some (0x00000005#32, 0#64) := by decide +kernel

/-- V13, index 5: `22.3125 / 4 = 5.578125`. -/
theorem test_calfin : (fun t : State => (t.nfen, t.nf[(5 : Fin 19)])) (next .reset (exec .calfin
    { State.reset with calcnt := 4#16, ca := Vector.replicate 19 0x4036500000000000#64 })) =
      (true, 0x4016500000000000#64) := by decide +kernel

/-- V15a: three windows fail and switch normalisation off. -/
theorem test_calfin_short : answer .reset (exec .calfin { State.reset with calcnt := 3#16, nfen := true }) =
    some (0x00030000#32, 0#64) := by decide +kernel

/-- V17. -/
theorem test_nfdis : (next .reset (exec .nfdis { State.reset with nfen := true })).nfen = false := by decide

/-- V16. -/
theorem test_rdnf : answer .reset (exec (.rdnf 5) { State.reset with
    nfen := true, nf := Vector.replicate 19 0x4016500000000000#64 }) = some (0x00000010#32, 0x4016500000000000#64) := by
  decide +kernel

/-- 43_classifier.md R99, R100: `win2` is nibble 15 (`(2 + 1.913...)/(2 + 1.847...)` is above 1.008), kept as the high
nibble. -/
theorem test_cls_high : (next .reset (exec .cls (loaded2 win2))).out.map Response.stat = [0x0F000010#32] := by
  decide +kernel

/-- The same symbol after a pending 4 makes the byte `0x4F`. -/
theorem test_cls_byte : (next .reset (exec .cls { loaded2 win2 with nibv := true, nibbuf := 4#4 })).out.map
    Response.stat = [0x0F4F0030#32] := by decide +kernel

/-- V20: the threshold is inclusive, one unit below it is not enough, a tie is invalid. -/
theorem test_classify_threshold :
    classify binary64 #v[0x3FF020C49BA5E354#64, one, 0, 0, 0, 0, 0, 0, 0, 0, 0, 0, 0, 0, 0, 0] = some 0 ∧
    classify binary64 #v[0x3FF020C49BA5E353#64, one, 0, 0, 0, 0, 0, 0, 0, 0, 0, 0, 0, 0, 0, 0] = none ∧
    classify binary64 #v[one, one, 0, 0, 0, 0, 0, 0, 0, 0, 0, 0, 0, 0, 0, 0] = none := by decide +kernel

/-- V20g, V20f, V20j: zero second maximum, no energy, a NaN. -/
theorem test_classify_corners :
    classify binary64 #v[0, 0, 0, one, 0, 0, 0, 0, 0, 0, 0, 0, 0, 0, 0, 0] = some 3 ∧
    classify binary64 (Vector.replicate 16 0#64) = none ∧
    classify binary64 #v[one, 0, 0, 0, f64Nan, 0, 0, 0, 0, 0, 0, 0, 0, 0, 0, 0] = none := by decide +kernel

/-- V23a. -/
theorem test_nclr : (fun t : State => (t.nibv, t.nibbuf)) (next .reset (exec .nclr
    { State.reset with nibv := true, nibbuf := 7#4 })) = (false, 0#4) := by decide

/-- V23d and V23b: 3000.0 and 1000.0 Hz. -/
theorem test_rdft_nibble : answer .reset (exec (.rdft 13) .reset) = some (0#32, 0x40A7700000000000#64) := by decide +kernel
theorem test_rdft_preamble : answer .reset (exec (.rdft 0) .reset) = some (0#32, 0x408F400000000000#64) := by decide +kernel

/-- V30. -/
theorem test_ckclr : (next .reset (exec .ckclr { State.reset with ck := 0x1234#16 })).ck = 0#16 := by decide

/-- V31d: the byte is not sign-extended and the sum wraps. -/
theorem test_ckadd_wraps : answer .reset (exec (.ckadd 0xFF) { State.reset with ck := 0xFF80#16 }) =
    some (0x007F0000#32, 0#64) := by decide +kernel

/-- P3 step 1305. -/
theorem test_ckrd : answer .reset (exec .ckrd { State.reset with ck := 0x013B#16 }) = some (0x013B0000#32, 0#64) := by
  decide +kernel

/-- V35 and V34. -/
theorem test_ckcmp_match : answer .reset (exec (.ckcmp 0x7F33) { State.reset with ck := 0x7F33#16 }) =
    some (0x7F330010#32, 0#64) := by decide +kernel
theorem test_ckcmp_mismatch : answer .reset (exec (.ckcmp 0x7F32) { State.reset with ck := 0x7F33#16 }) =
    some (0x7F330000#32, 0#64) := by decide +kernel

/-- V41: an unassigned opcode sets `ESR` bit 1. -/
theorem test_step_illegal : (fun t : State => (t.esr, t.inputs, t.out.map Response.stat))
    (next .reset (step (presented 0x04000000#32 one))) = (2#8, [], [1#32]) := by decide +kernel

/-- A table word runs as the next instruction. -/
theorem test_fetch_word : answer .reset (step (State.reset.withFetchWord 32 0x5100004D)) = some (0x004D0000#32, 0#64) := by
  decide +kernel

/-- The free NaN path is reached: two samples of the largest finite value overflow to a NaN power at index 0. -/
theorem test_gzr_free_nan : (next .reset (exec (.gzr 0) (loaded2 winMax))).nanCount = 1 := by decide +kernel

/-! ### Witnesses: the hypotheses of each obligation are met by these values -/

theorem witness_DecodeEncodeRoundTrip :
    Instr.wellFormed (.gzr 31) = true ∧ Instr.wellFormed (.gzn 31) = true ∧ Instr.wellFormed (.rdnf 31) = true ∧
    Instr.wellFormed (.rdft 31) = true ∧ Instr.wellFormed (.ckadd 255) = true ∧
    Instr.wellFormed (.ckcmp 65535) = true ∧ Instr.wellFormed (.wpush inf) = true := by decide

theorem witness_DecodedWordIsItsEncoding : decode 0x5300FFFF#32 one = .ok (.ckcmp 65535) := by rfl

theorem witness_DecodeAgreesWithOpcodeMap :
    decode 0x2000001F#32 one = .ok (.gzr 31) ∧
    (⟨"GZR", 0x20000000#32, 0xFFFFFFE0#32⟩ : OpcodeRow) ∈ opcodeMap ∧
    0x2000001F#32 &&& 0xFFFFFFE0#32 = 0x20000000#32 := by
  refine ⟨rfl, ?_, ?_⟩ <;> decide

/-- One row and itself: the two rows of the statement. -/
theorem witness_OpcodeRowsNeverOverlap :
    (⟨"CKCMP", 0x53000000#32, 0xFFFF0000#32⟩ : OpcodeRow) ∈ opcodeMap ∧
    0x5300FFFF#32 &&& 0xFFFF0000#32 = 0x53000000#32 := by decide

/-- With a checksum and a pending nibble to clear. -/
theorem witness_DclrClearsDecoderSide :
    ∃ t u v : State, exec .dclr { State.reset with ck := 0x013B#16, nibv := true, nibbuf := 4#4 } = .next t ∧
      exec .ckclr { State.reset with ck := 0x013B#16, nibv := true, nibbuf := 4#4 } = .next u ∧
      exec .nclr u = .next v := ⟨_, _, _, rfl, rfl, rfl⟩

/-- A finite and a non-finite sample; one sample short of full, and full. -/
theorem witness_WpushAppendsAndSlides :
    f64Finite 0x7FEFFFFFFFFFFFFF#64 = true ∧ f64Finite inf = false ∧
    (loaded (winZ.take 63)).win.length < (loaded (winZ.take 63)).params.nSym ∧
    (loaded winZ).params.nSym ≤ (loaded winZ).win.length := by decide +kernel

theorem witness_WloadFillsWindowInOrder :
    winI0.length = State.reset.params.nSym ∧ ∀ x ∈ winI0, f64Finite x = true :=
  ⟨rfl, List.all_eq_true.mp (by decide +kernel)⟩

/-- One sample `1.0` at index 5, whose coefficient is 0: `s1` is 0, then 1; `s2` is 0, then 0. -/
theorem witness_RawPowerFollowsRecurrence :
    ∃ s s' : Nat → F64, s 0 = binary64.zero ∧ s' 0 = binary64.zero ∧
      (∀ n (h : n < [one].length), s (n + 1) = binary64.fsub (binary64.fadd [one][n]
        (binary64.fmul Config.tc1.coef[(5 : Fin 19)] (s n))) (s' n)) ∧
      ∀ n, n < [one].length → s' (n + 1) = s n := by
  have hc : Config.tc1.coef[(5 : Fin 19)] = 0#64 := rfl
  have key : f64Sub (f64Add one (f64Mul 0#64 0#64)) 0#64 = one := by decide +kernel
  refine ⟨fun n => if n = 0 then 0#64 else one, fun _ => 0#64, rfl, rfl, ?_, ?_⟩
  · intro n h
    have h0 : n = 0 := by simpa using h
    subst h0
    simp only [hc, binary64_fsub, binary64_fadd, binary64_fmul, List.getElem_cons_zero, if_true, key]
    rfl
  · intro n h
    have h0 : n = 0 := by simpa using h
    subst h0
    rfl

/-- The indices 19 and 18, the full window and the one a sample short, as GZR and GZN share them. -/
theorem witness_GzrReturnsRawPower :
    (31 ≤ 31 ∧ 18 < 19 ∧ 18 ≤ 18 ∧ 18 < 19) ∧
    (loaded (winZ.take 63)).win.length ≠ (loaded (winZ.take 63)).params.nSym ∧
    (loaded winZ).win.length = (loaded winZ).params.nSym := by decide

theorem witness_GznReturnsNormalisedPower :
    (loaded (winZ.take 63)).win.length ≠ (loaded (winZ.take 63)).params.nSym ∧
    (loaded winZ).win.length = (loaded winZ).params.nSym ∧ (loaded winZ).nfen = false ∧
    (fun s : State => s.win.length = s.params.nSym ∧ s.nfen = true) { loaded winZ with nfen := true } := by decide

/-- The counter one below its largest value, and at it. -/
theorem witness_CalaccAccumulatesWindow_accumulates :
    (fun s : State => s.win.length = s.params.nSym ∧ s.calcnt ≠ 65535#16 ∧
      ∀ i : Fin 19, f64Finite (rawPower binary64 s.params s.win i) = true)
        { loaded2 [0#64, 0#64] with calcnt := 65534#16 } := by decide +kernel

theorem witness_CalaccAccumulatesWindow_faults :
    (loaded2 [one]).win.length ≠ (loaded2 [one]).params.nSym ∧
    (fun s : State => s.win.length = s.params.nSym ∧ s.calcnt = 65535#16)
      { loaded2 win2 with calcnt := 65535#16 } ∧
    (loaded2 winMax).win.length = (loaded2 winMax).params.nSym ∧ (loaded2 winMax).calcnt ≠ 65535#16 := by decide

theorem witness_CalaccAccumulatesWindow_nonfinite :
    ∃ i : Fin 19, f64Finite (rawPower binary64 (loaded2 winMax).params (loaded2 winMax).win i) = false :=
  ⟨0, by decide +kernel⟩

/-- Four windows and three. -/
theorem witness_CalfinAveragesOrDisables : 4 ≤ (4#16).toNat ∧ (3#16).toNat < 4 := by decide

theorem witness_RdnfReadsNoiseFloor : 31 ≤ 31 ∧ 18 < 19 ∧ 18 < 19 := by decide

/-- Four silent windows. -/
theorem witness_CalibrationAveragesRawPowers :
    (∀ w ∈ List.replicate 4 [0#64, 0#64], w.length = (loaded2 []).params.nSym ∧ (∀ x ∈ w, f64Finite x = true) ∧
      ∀ i : Fin 19, f64Finite (rawPower binary64 (loaded2 []).params w i) = true) ∧
    4 ≤ (List.replicate 4 [0#64, 0#64]).length ∧ (List.replicate 4 [0#64, 0#64]).length ≤ 65535 := by
  refine ⟨?_, by decide, by decide⟩
  intro w hw
  rw [List.eq_of_mem_replicate hw]
  exact ⟨rfl, List.all_eq_true.mp (by decide +kernel), by decide +kernel⟩

/-- All powers 1.0 and all powers 2.0. -/
theorem witness_ClassifyIgnoresExactScaling :
    (0 : ℚ) < 2 ∧ f64Finite one = true ∧ f64Finite 0x4000000000000000#64 = true ∧
    f64Value 0x4000000000000000#64 = 2 * f64Value one := by decide +kernel

/-- All powers equal: the second maximum is at index 1. -/
theorem witness_RealClassifyHasNoDivision :
    (∃ m : Fin 16, m ≠ 0 ∧ (Vector.replicate 16 (1 : ℝ))[m] = 1) ∧
    ∀ j : Fin 16, j ≠ 0 → (Vector.replicate 16 (1 : ℝ))[j] ≤ 1 :=
  ⟨⟨1, by decide, by simp⟩, by simp⟩

/-- `win2` is a valid symbol, nibble 15. -/
theorem win2_is_fifteen :
    classify binary64 (nibblePowers binary64 (loaded2 win2).params (loaded2 win2).toBlock) = some 15 := by
  decide +kernel

/-- Silence is an invalid symbol. -/
theorem silence_is_invalid :
    classify binary64 (nibblePowers binary64 (loaded2 [0#64, 0#64]).params (loaded2 [0#64, 0#64]).toBlock) = none := by
  decide +kernel

theorem witness_ClsClassifiesAndAssembles :
    (loaded2 [one]).win.length ≠ (loaded2 [one]).params.nSym ∧ (loaded2 win2).win.length = (loaded2 win2).params.nSym ∧
    (∀ k : Fin 16, (nibblePowers binary64 (loaded2 win2).params (loaded2 win2).toBlock)[k] =
      normPower binary64 (loaded2 win2).params (loaded2 win2).toBlock ⟨3 + k.val, by omega⟩) ∧
    classify binary64 (nibblePowers binary64 (loaded2 win2).params (loaded2 win2).toBlock) = some 15 ∧
    (loaded2 win2).nibv = false ∧
    classify binary64 (nibblePowers binary64 (loaded2 [0#64, 0#64]).params (loaded2 [0#64, 0#64]).toBlock) = none ∧
    (fun s : State => s.nibv = true ∧ classify binary64 (nibblePowers binary64 s.params s.toBlock) = some 15)
      { loaded2 win2 with nibv := true, nibbuf := 4#4 } := by
  exact ⟨by decide, by decide, nibblePowers_get _ _ _, win2_is_fifteen, rfl, silence_is_invalid, rfl, win2_is_fifteen⟩

/-- After a valid symbol in `s`, a state with the same window and the nibble registers it left. -/
theorem second_symbol (s : State) (k : Fin 16)
    (h : classify binary64 (nibblePowers binary64 s.params s.toBlock) = some k) :
    ∃ t u v : State, exec .cls s = .next t ∧ u.nibv = t.nibv ∧ u.nibbuf = t.nibbuf ∧ u.win = s.win ∧
      u.params = s.params ∧ classify binary64 (nibblePowers binary64 u.params u.toBlock) = some k ∧
      exec .cls u = .next v :=
  ⟨s.finish (classifySymbol binary64 s.params s.toBlock), { s with
      nibv := (s.finish (classifySymbol binary64 s.params s.toBlock)).nibv
      nibbuf := (s.finish (classifySymbol binary64 s.params s.toBlock)).nibbuf },
    _, rfl, rfl, rfl, rfl, rfl, h, rfl⟩

/-- The same symbol twice, the window filled again in between. -/
theorem witness_TwoValidSymbolsDeliverByte :
    ∃ s t u v : State, s.nibv = false ∧ s.win.length = s.params.nSym ∧
      classify binary64 (nibblePowers binary64 s.params s.toBlock) = some 15 ∧ exec .cls s = .next t ∧
      u.nibv = t.nibv ∧ u.nibbuf = t.nibbuf ∧ u.win.length = u.params.nSym ∧
      classify binary64 (nibblePowers binary64 u.params u.toBlock) = some 15 ∧ exec .cls u = .next v := by
  obtain ⟨t, u, v, h1, h2, h3, h4, h5, h6, h7⟩ := second_symbol (loaded2 win2) 15 win2_is_fifteen
  refine ⟨loaded2 win2, t, u, v, rfl, by decide, win2_is_fifteen, h1, h2, h3, ?_, h6, h7⟩
  rw [h4, h5]
  decide

theorem witness_RdftReadsFrequencyTable :
    (31 ≤ 31 ∧ 18 < 19 ∧ 15 ≤ 15) ∧
    ∃ (t : State) (r : Response F64), exec (.rdft 18) .reset = .next t ∧ t.out = r :: State.reset.out :=
  ⟨by decide, _, _, rfl, rfl⟩

theorem witness_CkaddAddsByteModulo65536 : 255 ≤ 255 := by decide

theorem witness_CkcmpComparesAllBits : 65535 ≤ 65535 := by decide

theorem witness_ChecksumIsSumOfBytes : ∀ b ∈ [255, 0, 1], b ≤ 255 := by decide

theorem witness_ChecksumDetectsOneChangedByte :
    (∀ b ∈ [0xFF], b ≤ 255) ∧ (∀ b ∈ [0], b ≤ 255) ∧ 255 ≤ 255 ∧ 254 ≤ 255 ∧ 254 ≠ 255 := by decide

/-- A state that presents CKADD 0x4D: the hypotheses of `StepRunsDecodedInstruction`, `EveryCommandIsAnswered`,
`FaultFollowsPriority` and `StepIsTheSpecsFunction`. -/
theorem witness_StepRunsDecodedInstruction :
    (presented 0x5100004D#32 one).inputs = [.command ⟨0x5100004D#32, one⟩] ∧
    decode 0x5100004D#32 one = .ok (.ckadd 0x4D) := ⟨rfl, rfl⟩

theorem witness_UnmatchedWordIsIllegal :
    (presented 0x40000001#32 one).inputs = [.command ⟨0x40000001#32, one⟩] ∧
    ∀ r ∈ opcodeMap, 0x40000001#32 &&& r.mask ≠ r.pattern := by
  refine ⟨rfl, ?_⟩
  decide

theorem witness_HardResetAndIdleSteps :
    (fun s : State => s.inputs = [.reset (some ⟨0x31000000#32, one⟩)])
      { loaded winZ with inputs := [.reset (some ⟨0x31000000#32, one⟩)] } ∧ State.reset.inputs = [] := ⟨rfl, rfl⟩

theorem witness_ResetValues : 0 < Config.tc1.nSym := by decide

theorem witness_EveryCommandIsAnswered :
    (presented 0x01000000#32 one).inputs = [.command ⟨0x01000000#32, one⟩] := rfl

theorem witness_FaultFollowsPriority :
    (presented 0x2000001F#32 one).inputs = [.command ⟨0x2000001F#32, one⟩] := rfl

/-- GZR 31 on the reset state: the index test fails. -/
theorem witness_FaultingCommandChangesOnlyEsr :
    ∃ (t : State) (r : Response F64), (presented 0x2000001F#32 one).inputs = [.command ⟨0x2000001F#32, one⟩] ∧
      step (presented 0x2000001F#32 one) = .next t ∧ t.out = r :: (presented 0x2000001F#32 one).out ∧ r.fault ≠ 0#4 :=
  ⟨_, _, rfl, rfl, rfl, by decide⟩

/-- NOP is listed against no piece of state. -/
theorem witness_UnlistedCommandsLeaveStateAlone :
    ∃ t : State, exec .nop (loaded winZ) = .next t ∧ (∀ x, Instr.nop ≠ .wpush x) ∧ (∀ n, Instr.nop ≠ .ckadd n) ∧
      Instr.nop ≠ .wclr ∧ Instr.nop ≠ .calacc ∧ Instr.nop ≠ .srst ∧ Instr.nop ≠ .calfin ∧ Instr.nop ≠ .nfdis ∧
      Instr.nop ≠ .calclr ∧ Instr.nop ≠ .ckclr ∧ Instr.nop ≠ .dclr ∧ Instr.nop ≠ .cls ∧ Instr.nop ≠ .nclr ∧
      ∃ r : Response F64, t.out = r :: (loaded winZ).out ∧ r.fault = 0#4 := by
  refine ⟨_, rfl, by simp, by simp, by simp, by simp, by simp, by simp, by simp, by simp, by simp, by simp, by simp,
    by simp, _, rfl, by decide⟩

/-- DCLR with a sticky bit set. -/
theorem witness_EsrBitsAreSticky :
    ∃ s t : State, s.inputs = [.command ⟨0x02000000#32, one⟩] ∧ s.esr = 2#8 ∧ step s = .next t ∧
      (0x02000000#32 : Word) ≠ 0x01000000#32 :=
  ⟨{ presented 0x02000000#32 one with esr := 2#8 }, _, rfl, rfl, rfl, by decide⟩

/-- CALFIN after four windows. -/
theorem witness_OnlyCalfinEnablesNormalisation :
    ∃ s t : State, step s = .next t ∧ s.nfen = false ∧ t.nfen = true :=
  ⟨{ presented 0x32000000#32 one with calcnt := 4#16 }, _, rfl, rfl, rfl⟩

/-- RDST twice. -/
theorem witness_ReadCommandsAreIdempotent :
    ∃ (s t u : State) (r r' : Response F64), exec .rdst s = .next t ∧ t.out = r :: s.out ∧ r.fault = 0#4 ∧
      exec .rdst t = .next u ∧ u.out = r' :: t.out :=
  ⟨.reset, _, _, _, _, rfl, rfl, by decide, rfl, rfl⟩

/-- Two instances that differ in what their hosts present next and have received. -/
theorem witness_CommandDependsOnOwnStateOnly :
    ∃ s s' t t' : State, s.inputs = [.command ⟨0x03000000#32, one⟩] ∧
      s'.inputs = .command ⟨0x03000000#32, one⟩ :: [.reset none] ∧ s.toBlock = s'.toBlock ∧ s.params = s'.params ∧
      s.nanCount = s'.nanCount ∧ s.out ≠ s'.out ∧ step s = .next t ∧ step s' = .next t' :=
  ⟨presented 0x03000000#32 one, { State.reset with
      inputs := .command ⟨0x03000000#32, one⟩ :: [.reset none], out := [⟨0#32, one⟩] },
    _, _, rfl, rfl, rfl, rfl, rfl, by decide, rfl, rfl⟩

theorem witness_StepIsTheSpecsFunction :
    (presented 0x11000000#32 one).inputs = [.command ⟨0x11000000#32, one⟩] := rfl

/-- A legal state with a sample, a pending nibble and a sticky bit. -/
theorem witness_StepKeepsLegal :
    ∃ s t : State, Legal s.params s.toBlock ∧ s.win = [one] ∧ step s = .next t := by
  refine ⟨{ presented 0x00000000#32 one with win := [one], nibv := true, nibbuf := 4#4, esr := 2#8 }, _, ?_, rfl, rfl⟩
  exact ⟨by decide, by decide, by decide, List.all_eq_true.mp (by decide +kernel), by decide +kernel, by decide +kernel⟩

/-- Finite operands with a zero and a non-zero divisor and with opposite values, infinities of either sign, and a NaN. -/
theorem witness_Binary64RoundsToNearestEven :
    (f64Finite one = true ∧ f64Finite 0xBFF0000000000000#64 = true ∧ f64Finite 0x8000000000000000#64 = true) ∧
    f64Real 0xBFF0000000000000#64 ≠ 0 ∧ f64Real 0x8000000000000000#64 = 0 ∧
    f64Real one + f64Real 0xBFF0000000000000#64 = 0 ∧
    (f64IsInf inf = true ∧ f64IsInf 0xFFF0000000000000#64 = true ∧ f64Neg inf ≠ f64Neg 0xFFF0000000000000#64) ∧
    f64IsNan 0x7FF0000000000001#64 = true := by
  have h1 : f64Value one = 1 := by decide +kernel
  have h2 : f64Value 0xBFF0000000000000#64 = -1 := by decide +kernel
  have h3 : f64Value 0x8000000000000000#64 = 0 := by decide +kernel
  simp only [f64Real, h1, h2, h3]
  refine ⟨by decide +kernel, by norm_num, by norm_num, by norm_num, by decide +kernel, by decide +kernel⟩

/-- Both zeros, an infinity, and a NaN. -/
theorem witness_Binary64ComparisonsFollowValues :
    f64IsNan 0#64 = false ∧ f64IsNan 0x8000000000000000#64 = false ∧ f64IsNan inf = false ∧
    f64IsNan 0x7FF0000000000001#64 = true := by
  decide +kernel

theorem witness_ToNumIsExact : 65535 < 65536 := by decide

theorem witness_RealRawPowerIsDftPower : CoefExact (exactParams Config.tc1.toReal) := exactParams_coefExact _

theorem witness_RealPowerConsequences : CoefExact (exactParams Config.tc1.toReal) := exactParams_coefExact _

/-- A window of zeros has no power. -/
theorem real_silence_has_no_power (p : Params ℝ ℝ) (n : Nat) (i : Fin 19) :
    rawPower reals p (List.replicate n 0) i = 0 := by
  have h : ∀ m, (List.replicate m (0 : ℝ)).foldl (goertzelStep reals (coef p i)) (0, 0) = (0, 0) := by
    intro m
    induction m with
    | zero => rfl
    | succ m ih =>
      have e : goertzelStep reals (coef p i) (0, 0) 0 = (0, 0) := by simp [goertzelStep]
      rw [List.replicate_succ, List.foldl_cons, e, ih]
  rw [rawPower, reals_zero, h]
  simp [goertzelClose]

/-- With normalisation off and on. -/
theorem witness_RealSilentWindowIsInvalid :
    ∀ on : Bool, ∃ (p : Params ℝ ℝ) (b : Block ℝ), b.win.length = p.nSym ∧ b.nfen = on ∧
      (b.nfen = true → 0 < p.eps ∧ ∀ k : Fin 16, 0 ≤ b.nf[nibbleTone k]) ∧
      ∀ k : Fin 16, rawPower reals p b.win (nibbleTone k) = 0 := by
  intro on
  refine ⟨exactParams Config.tc1.toReal, { Block.reset (0 : ℝ) with win := List.replicate 64 0, nfen := on },
    List.length_replicate, rfl, fun _ => ⟨?_, fun k => ?_⟩, fun _ => real_silence_has_no_power _ _ _⟩
  · norm_num [exactParams, Params.toReal, Config.tc1]
  · simp [Block.reset]

end Sys2Proof.Tests
end

section
/-! The units of a magnitude, and what it means that a magnitude is the one nearest an exact value. -/

namespace Sys2Proof.Machine

/-! ### Units -/

/-- The significand `r` at the exponent `k`: `r` spacings of `2^k` units. At `r = 2^53` the carry has moved into the
exponent field, and the equation still holds. -/
theorem f64MagUnits_binade {k r : Nat} (hr : r ≤ 2 ^ 53) (hk : k = 0 ∨ 2 ^ 52 ≤ r) :
    f64MagUnits (k * 2 ^ 52 + r) = r * 2 ^ k := by
  unfold f64MagUnits
  rcases Nat.lt_or_ge r (2 ^ 52) with hlow | hnorm
  · obtain rfl : k = 0 := by omega
    rw [if_pos (by omega)]; simp
  rcases Nat.lt_or_ge r (2 ^ 53) with hlt | hcarry
  · have hdiv : (k * 2 ^ 52 + r) / 2 ^ 52 = k + 1 := by omega
    have hmod : 2 ^ 52 + (k * 2 ^ 52 + r) % 2 ^ 52 = r := by omega
    rw [if_neg (by omega), hdiv, hmod, Nat.add_sub_cancel]
  · obtain rfl : r = 2 ^ 53 := by omega
    have hdiv : (k * 2 ^ 52 + 2 ^ 53) / 2 ^ 52 = k + 2 := by omega
    have hmod : (k * 2 ^ 52 + 2 ^ 53) % 2 ^ 52 = 0 := by omega
    rw [if_neg (by omega), hdiv, hmod, show k + 2 - 1 = k + 1 by omega]
    ring

/-- Every magnitude is a significand at an exponent, not the carry. -/
theorem exists_binade (m : Nat) : ∃ k r, m = k * 2 ^ 52 + r ∧ r < 2 ^ 53 ∧ (k = 0 ∨ 2 ^ 52 ≤ r) :=
  ⟨m / 2 ^ 52 - 1, m - (m / 2 ^ 52 - 1) * 2 ^ 52, by omega, by omega, by omega⟩

/-- A larger magnitude has more units. -/
theorem f64MagUnits_strictMono : StrictMono f64MagUnits := by
  refine strictMono_nat_of_lt_succ fun m => ?_
  obtain ⟨k, r, rfl, hr, hk⟩ := exists_binade m
  have hk' : k = 0 ∨ 2 ^ 52 ≤ r + 1 := by omega
  rw [Nat.add_assoc, f64MagUnits_binade hr.le hk, f64MagUnits_binade hr hk']
  exact Nat.mul_lt_mul_of_pos_right (Nat.lt_succ_self r) (Nat.two_pow_pos k)

@[simp] theorem f64MagUnits_zero : f64MagUnits 0 = 0 := by simp [f64MagUnits]

@[simp] theorem f64MagUnits_eq_zero {m : Nat} : f64MagUnits m = 0 ↔ m = 0 := by
  rw [← f64MagUnits_zero, f64MagUnits_strictMono.injective.eq_iff, f64MagUnits_zero]

/-! ### The nearest magnitude -/

/-- `m` is the magnitude nearest `v` units, the even one on a tie, were there no largest finite value: `v` lies between
the points halfway to the two neighbours of `m`, and on one of them only if `m` is even. -/
def NearestMag (v : ℝ) (m : Nat) : Prop :=
  (2 * v ≤ f64MagUnits m + f64MagUnits (m + 1) ∧
    (2 * v = f64MagUnits m + f64MagUnits (m + 1) → m % 2 = 0)) ∧
  ∀ l, m = l + 1 → (f64MagUnits l + f64MagUnits m : ℝ) ≤ 2 * v ∧
    ((f64MagUnits l + f64MagUnits m : ℝ) = 2 * v → m % 2 = 0)

theorem f64MagUnits_cast_le {i j : Nat} (h : i ≤ j) : (f64MagUnits i : ℝ) ≤ f64MagUnits j :=
  Nat.cast_le.mpr (f64MagUnits_strictMono.monotone h)

theorem f64MagUnits_cast_lt {i j : Nat} (h : i < j) : (f64MagUnits i : ℝ) < f64MagUnits j :=
  Nat.cast_lt.mpr (f64MagUnits_strictMono h)

/-- Below the point halfway to any larger magnitude; on it only if `m` is even. -/
theorem NearestMag.above {v : ℝ} {m j : Nat} (h : NearestMag v m) (hj : m < j) :
    2 * v ≤ f64MagUnits m + f64MagUnits j ∧ (2 * v = f64MagUnits m + f64MagUnits j → m % 2 = 0) := by
  obtain ⟨⟨hle, htie⟩, -⟩ := h
  have hmono := f64MagUnits_cast_le hj
  exact ⟨by linarith, fun e => htie (by linarith)⟩

/-- Above the point halfway to any smaller magnitude; on it only if `m` is even. -/
theorem NearestMag.below {v : ℝ} {m j : Nat} (h : NearestMag v m) (hj : j < m) :
    (f64MagUnits j + f64MagUnits m : ℝ) ≤ 2 * v ∧
      ((f64MagUnits j + f64MagUnits m : ℝ) = 2 * v → m % 2 = 0) := by
  obtain ⟨l, rfl⟩ : ∃ l, m = l + 1 := ⟨m - 1, by omega⟩
  obtain ⟨hle, htie⟩ := h.2 l rfl
  have hmono := f64MagUnits_cast_le (Nat.le_of_lt_succ hj)
  exact ⟨by linarith, fun e => htie (by linarith)⟩

/-- No number has two nearest magnitudes: of two neighbours only one is even. -/
theorem NearestMag.not_lt {v : ℝ} {m j : Nat} (hm : NearestMag v m) (hj : NearestMag v j) : ¬ m < j := by
  intro h
  obtain ⟨hle, heven⟩ := hm.above h
  obtain ⟨hge, hodd⟩ := hj.below h
  have hmid : (f64MagUnits m + f64MagUnits j : ℝ) = 2 * v := by linarith
  have hstep : j = m + 1 := by
    by_contra hne
    have hlt := f64MagUnits_cast_lt (show m + 1 < j by omega)
    linarith [hm.1.1]
  have := heven hmid.symm
  have := hodd hmid
  omega

theorem NearestMag.unique {v : ℝ} {m j : Nat} (hm : NearestMag v m) (hj : NearestMag v j) : m = j :=
  le_antisymm (Nat.le_of_not_lt (hj.not_lt hm)) (Nat.le_of_not_lt (hm.not_lt hj))

/-- A whole magnitude is nearest itself. -/
theorem nearestMag_units (m : Nat) : NearestMag (f64MagUnits m) m := by
  have hup := f64MagUnits_cast_lt (Nat.lt_succ_self m)
  refine ⟨⟨by linarith, fun e => absurd e (by linarith)⟩, ?_⟩
  rintro l rfl
  have hdown := f64MagUnits_cast_lt (Nat.lt_succ_self l)
  exact ⟨by linarith, fun e => absurd e (by linarith)⟩

/-- Two values on the same side of every multiple of half a unit have the same nearest magnitude. -/
theorem NearestMag.congr {v w : ℝ} {m : Nat} (h : NearestMag v m)
    (hle : ∀ j : Nat, 2 * v ≤ j ↔ 2 * w ≤ j) (hge : ∀ j : Nat, (j : ℝ) ≤ 2 * v ↔ (j : ℝ) ≤ 2 * w) :
    NearestMag w m := by
  have heq : ∀ j : Nat, 2 * w = j ↔ 2 * v = j := fun j => by
    rw [le_antisymm_iff, le_antisymm_iff, hle, hge]
  have heq' : ∀ j : Nat, (j : ℝ) = 2 * w ↔ (j : ℝ) = 2 * v := fun j => by rw [eq_comm, heq, eq_comm]
  unfold NearestMag at h ⊢
  simpa only [← Nat.cast_add, ← hle, ← hge, heq, heq'] using h

/-! ### Rounding -/

/-- The rounding of `f64RoundMag` before it stops at an infinity. -/
def roundUnbounded (n d : Nat) : Nat :=
  ((n / d).log2 - 52) * 2 ^ 52 + roundHalfEven n (d * 2 ^ ((n / d).log2 - 52))

theorem f64RoundMag_eq (n d : Nat) : f64RoundMag n d = min (roundUnbounded n d) f64InfMag := rfl

/-- `n / d` spacings: half a spacing below and above, and the even count on a tie. -/
theorem roundHalfEven_cases (n d : Nat) :
    (roundHalfEven n d = n / d ∧ 2 * (n % d) ≤ d ∧ (2 * (n % d) = d → (n / d) % 2 = 0)) ∨
    (roundHalfEven n d = n / d + 1 ∧ d ≤ 2 * (n % d) ∧ (d = 2 * (n % d) → (n / d) % 2 = 1)) := by
  unfold roundHalfEven
  split <;> omega

/-- The number of spacings in `n / d` fits the significand. -/
theorem spacings_bounds {n d : Nat} (k : Nat) (hk : k = (n / d).log2 - 52) :
    n / (d * 2 ^ k) < 2 ^ 53 ∧ (k = 0 ∨ 2 ^ 52 ≤ n / (d * 2 ^ k)) := by
  rw [← Nat.div_div_eq_div_mul]
  have hup : n / d < 2 ^ ((n / d).log2 + 1) := Nat.lt_log2_self
  refine ⟨?_, ?_⟩
  · rw [Nat.div_lt_iff_lt_mul (Nat.two_pow_pos k), ← Nat.pow_add]
    exact hup.trans_le (Nat.pow_le_pow_right (by norm_num) (by omega))
  · refine or_iff_not_imp_left.mpr fun h0 => ?_
    have hne : n / d ≠ 0 := by
      intro h; rw [h] at hk; simp at hk; exact h0 hk
    rw [Nat.le_div_iff_mul_le (Nat.two_pow_pos k), ← Nat.pow_add, show 52 + k = (n / d).log2 by omega]
    exact Nat.log2_self_le hne

/-- Rounding down: from a significand to the point halfway to the next. -/
theorem nearestMag_round_down {k q : Nat} {v : ℝ} (hq : q < 2 ^ 53) (hk : k = 0 ∨ 2 ^ 52 ≤ q)
    (hlow : (q : ℝ) * 2 ^ k ≤ v) (hhalf : 2 * v ≤ (2 * q + 1) * 2 ^ k)
    (htie : 2 * v = (2 * q + 1) * 2 ^ k → q % 2 = 0) : NearestMag v (k * 2 ^ 52 + q) := by
  have hU : (f64MagUnits (k * 2 ^ 52 + q) : ℝ) = q * 2 ^ k := by
    rw [f64MagUnits_binade hq.le hk]; push_cast; rfl
  have hU' : (f64MagUnits (k * 2 ^ 52 + q + 1) : ℝ) = (q + 1) * 2 ^ k := by
    rw [Nat.add_assoc, f64MagUnits_binade hq (by omega)]; push_cast; rfl
  refine ⟨⟨by linarith, fun e => ?_⟩, fun l hl => ?_⟩
  · have := htie (by linarith)
    omega
  · have hlt := f64MagUnits_cast_lt (show l < k * 2 ^ 52 + q by omega)
    exact ⟨by linarith, fun e => absurd e (by linarith)⟩

/-- Rounding up: from the point halfway to the next significand to that significand. -/
theorem nearestMag_round_up {k q : Nat} {v : ℝ} (hq : q < 2 ^ 53) (hk : k = 0 ∨ 2 ^ 52 ≤ q)
    (hhigh : v < (q + 1) * 2 ^ k) (hhalf : (2 * q + 1) * 2 ^ k ≤ 2 * v)
    (htie : (2 * q + 1) * 2 ^ k = 2 * v → q % 2 = 1) : NearestMag v (k * 2 ^ 52 + (q + 1)) := by
  have hU : (f64MagUnits (k * 2 ^ 52 + q) : ℝ) = q * 2 ^ k := by
    rw [f64MagUnits_binade hq.le hk]; push_cast; rfl
  have hU' : (f64MagUnits (k * 2 ^ 52 + (q + 1)) : ℝ) = (q + 1) * 2 ^ k := by
    rw [f64MagUnits_binade hq (by omega)]; push_cast; rfl
  refine ⟨?_, fun l hl => ?_⟩
  · have hlt := f64MagUnits_cast_lt (Nat.lt_succ_self (k * 2 ^ 52 + (q + 1)))
    exact ⟨by linarith, fun e => absurd e (by linarith)⟩
  · obtain rfl : l = k * 2 ^ 52 + q := by omega
    refine ⟨by linarith, fun e => ?_⟩
    have := htie (by linarith)
    omega

/-- The rounding gives the nearest magnitude. -/
theorem nearestMag_roundUnbounded (n : Nat) {d : Nat} (hd : 0 < d) :
    NearestMag ((n : ℝ) / d) (roundUnbounded n d) := by
  unfold roundUnbounded
  generalize hk : (n / d).log2 - 52 = k
  obtain ⟨hq, hnorm⟩ := spacings_bounds (n := n) (d := d) k hk.symm
  have hround := roundHalfEven_cases n (d * 2 ^ k)
  have hsplit : (d * 2 ^ k : ℝ) * (n / (d * 2 ^ k) : Nat) + (n % (d * 2 ^ k) : Nat) = n := by
    exact_mod_cast Nat.div_add_mod n (d * 2 ^ k)
  have hrem : n % (d * 2 ^ k) < d * 2 ^ k := Nat.mod_lt _ (by positivity)
  have hscale : ((d * 2 ^ k : Nat) : ℝ) = 2 ^ k * d := by push_cast; ring
  have hd' : (0 : ℝ) < d := Nat.cast_pos.mpr hd
  generalize n / (d * 2 ^ k) = q at *
  generalize n % (d * 2 ^ k) = r at *
  generalize d * 2 ^ k = s at *
  have hv : (n : ℝ) / d = q * 2 ^ k + r / d := by rw [← hsplit]; field_simp
  have hr0 : (0 : ℝ) ≤ r / d := by positivity
  have htwice : 2 * (r / d : ℝ) = (2 * r : Nat) / d := by push_cast; ring
  have hspacing : (2 : ℝ) ^ k = s / d := by rw [hscale]; field_simp
  rcases hround with ⟨e, hhalf, htie⟩ | ⟨e, hhalf, htie⟩ <;> rw [e, hv]
  · have hle : 2 * (r / d : ℝ) ≤ 2 ^ k := by
      rwa [htwice, hspacing, div_le_div_iff_of_pos_right hd', Nat.cast_le]
    refine nearestMag_round_down hq hnorm (by linarith) (by linarith) fun h => htie ?_
    have : 2 * (r / d : ℝ) = 2 ^ k := by linarith
    rwa [htwice, hspacing, div_left_inj' hd'.ne', Nat.cast_inj] at this
  · have hge : (2 : ℝ) ^ k ≤ 2 * (r / d) := by
      rwa [htwice, hspacing, div_le_div_iff_of_pos_right hd', Nat.cast_le]
    have hlt : (r / d : ℝ) < 2 ^ k := by
      rwa [hspacing, div_lt_div_iff_of_pos_right hd', Nat.cast_lt]
    refine nearestMag_round_up hq hnorm (by linarith) (by linarith) fun h => htie ?_
    have : (2 : ℝ) ^ k = 2 * (r / d) := by linarith
    rwa [htwice, hspacing, div_left_inj' hd'.ne', Nat.cast_inj] at this

end Sys2Proof.Machine
end

section
/-! What a packed pattern stands for as a real number, and the patterns nearest a real number. -/

namespace Sys2Proof.Machine

/-! ### Values -/

/-- The number of units in 1, as a real number that no tactic evaluates. -/
noncomputable def unitsPerOne : ℝ := f64One

/-- `v` units of a given sign, as a real number. -/
noncomputable def signedUnits (neg : Bool) (v : ℝ) : ℝ := (if neg then -v else v) / unitsPerOne

theorem unitsPerOne_eq : unitsPerOne = 2 ^ 1074 := by rw [unitsPerOne, f64One, Nat.cast_pow, Nat.cast_ofNat]

theorem unitsPerOne_pos : 0 < unitsPerOne := by rw [unitsPerOne_eq]; positivity

theorem f64Real_eq (x : F64) : f64Real x = signedUnits (f64Neg x) (f64MagUnits (f64Mag x)) := by
  rw [f64Real, f64Value, f64Units, signedUnits, unitsPerOne, Rat.cast_div, Rat.cast_intCast, Rat.cast_natCast]
  cases f64Neg x
  · simp only [Bool.false_eq_true, if_false, Int.cast_natCast]
  · simp only [if_true, Int.cast_neg, Int.cast_natCast]

@[simp] theorem f64Real_pack {m : Nat} (neg : Bool) (h : m < 2 ^ 63) :
    f64Real (f64Pack neg m) = signedUnits neg (f64MagUnits m) := by
  rw [f64Real_eq, f64Neg_pack neg h, f64Mag_pack neg h]

theorem signedUnits_eq_zero {neg : Bool} {v : ℝ} : signedUnits neg v = 0 ↔ v = 0 := by
  have h1 := unitsPerOne_pos.ne'
  cases neg <;> simp [signedUnits, h1]

/-- A pattern is a zero exactly when its value is zero. -/
theorem f64Real_eq_zero {x : F64} : f64Real x = 0 ↔ f64Mag x = 0 := by
  rw [f64Real_eq, signedUnits_eq_zero, Nat.cast_eq_zero, f64MagUnits_eq_zero]

theorem abs_signedUnits (neg : Bool) {v : ℝ} (hv : 0 ≤ v) : |signedUnits neg v| = v / unitsPerOne := by
  have h1 := unitsPerOne_pos
  cases neg <;> simp [signedUnits, abs_div, abs_of_nonneg hv, abs_of_pos h1]

theorem signedUnits_neg {neg : Bool} {v : ℝ} (hv : 0 < v) : decide (signedUnits neg v < 0) = neg := by
  have h1 := unitsPerOne_pos
  cases neg
  · simpa [signedUnits] using (div_pos hv h1).le
  · simpa [signedUnits] using div_neg_of_neg_of_pos (neg_lt_zero.mpr hv) h1

/-- A real number as its sign and its units. -/
theorem signedUnits_abs (x : ℝ) : signedUnits (decide (x < 0)) (|x| * unitsPerOne) = x := by
  have h1 := unitsPerOne_pos.ne'
  by_cases h : x < 0
  · simp [signedUnits, h, abs_of_neg h, h1]
  · simp [signedUnits, h, abs_of_nonneg (not_lt.mp h), h1]

theorem abs_signedUnits_sub (neg : Bool) (v w : ℝ) :
    |signedUnits neg v - signedUnits neg w| = |v - w| / unitsPerOne := by
  have h1 := unitsPerOne_pos
  rw [signedUnits, signedUnits, ← sub_div, abs_div, abs_of_pos h1]
  cases neg
  · simp
  · simp [← abs_neg (v - w), neg_add_eq_sub]

/-- Across zero the distance is the sum. -/
theorem abs_signedUnits_not_sub (neg : Bool) {v w : ℝ} (hv : 0 ≤ v) (hw : 0 ≤ w) :
    |signedUnits (!neg) v - signedUnits neg w| = (v + w) / unitsPerOne := by
  have h1 := unitsPerOne_pos
  rw [signedUnits, signedUnits, ← sub_div, abs_div, abs_of_pos h1]
  congr 1
  cases neg
  · rw [show ((if !false then -v else v) - if false then -w else w) = -(v + w) by simp; ring, abs_neg,
      abs_of_nonneg (add_nonneg hv hw)]
  · simpa using abs_of_nonneg (add_nonneg hv hw)

/-! ### The nearest finite magnitude -/

/-- `m` is the finite magnitude nearest `v` units, the even one on a tie. -/
def NearestFiniteMag (v : ℝ) (m : Nat) : Prop :=
  m < f64InfMag ∧ ∀ j < f64InfMag, |f64MagUnits m - v| ≤ |f64MagUnits j - v| ∧
    (j ≠ m → |f64MagUnits j - v| = |f64MagUnits m - v| → m % 2 = 0)

/-- Of two numbers the smaller is the nearer to whatever is not above their midpoint. -/
theorem abs_sub_of_below_mid {a b v : ℝ} (hab : a < b) (h : 2 * v ≤ a + b) :
    |a - v| ≤ |b - v| ∧ (|b - v| = |a - v| → 2 * v = a + b) := by
  rw [abs_of_nonneg (show 0 ≤ b - v by linarith)]
  refine ⟨abs_le.mpr ⟨by linarith, by linarith⟩, fun e => ?_⟩
  rcases abs_choice (a - v) with ha | ha <;> linarith

/-- Of two numbers the larger is the nearer to whatever is not below their midpoint. -/
theorem abs_sub_of_above_mid {a b v : ℝ} (hab : b < a) (h : b + a ≤ 2 * v) :
    |a - v| ≤ |b - v| ∧ (|b - v| = |a - v| → b + a = 2 * v) := by
  have := abs_sub_of_below_mid (a := -a) (b := -b) (v := -v) (by linarith) (by linarith)
  rw [← neg_sub', abs_neg, ← neg_sub', abs_neg] at this
  exact ⟨this.1, fun e => by linarith [this.2 e]⟩

/-- A finite magnitude on the right side of the points halfway to every other finite one is the nearest. -/
theorem nearestFiniteMag_of_mids {v : ℝ} {m : Nat} (hm : m < f64InfMag)
    (above : ∀ j < f64InfMag, m < j →
      2 * v ≤ f64MagUnits m + f64MagUnits j ∧ (2 * v = f64MagUnits m + f64MagUnits j → m % 2 = 0))
    (below : ∀ j < m, (f64MagUnits j + f64MagUnits m : ℝ) ≤ 2 * v ∧
      ((f64MagUnits j + f64MagUnits m : ℝ) = 2 * v → m % 2 = 0)) : NearestFiniteMag v m := by
  refine ⟨hm, fun j hj => ?_⟩
  rcases lt_trichotomy m j with h | rfl | h
  · obtain ⟨hle, htie⟩ := abs_sub_of_below_mid (f64MagUnits_cast_lt h) (above j hj h).1
    exact ⟨hle, fun _ e => (above j hj h).2 (htie e)⟩
  · exact ⟨le_rfl, fun hne => absurd rfl hne⟩
  · obtain ⟨hle, htie⟩ := abs_sub_of_above_mid (f64MagUnits_cast_lt h) (below j h).1
    exact ⟨hle, fun _ e => (below j h).2 (htie e)⟩

theorem NearestMag.finite {v : ℝ} {m : Nat} (h : NearestMag v m) (hm : m < f64InfMag) : NearestFiniteMag v m :=
  nearestFiniteMag_of_mids hm (fun _ _ => h.above) (fun _ => h.below)

/-- Beyond the finite range the largest finite value is the nearest. -/
theorem NearestMag.finite_beyond {v : ℝ} {m : Nat} (h : NearestMag v m) (hm : f64InfMag ≤ m) :
    NearestFiniteMag v (f64InfMag - 1) := by
  have hinf : 0 < f64InfMag := by norm_num [f64InfMag]
  refine nearestFiniteMag_of_mids (by omega) (fun j _ _ => by omega) fun j hj => ?_
  have hlast := (h.below (show f64InfMag - 1 < m by omega)).1
  have hj' := f64MagUnits_cast_lt hj
  have hm' := f64MagUnits_cast_lt (show f64InfMag - 1 < m by omega)
  exact ⟨by linarith, fun e => absurd e (by linarith)⟩

/-- The nearest finite magnitude with the sign of the number is the nearest finite pattern: the patterns of the other
sign lie beyond zero. -/
theorem nearestFinite_pack {v : ℝ} {m : Nat} (neg : Bool) (hv : 0 ≤ v) (h : NearestFiniteMag v m) :
    NearestFinite (signedUnits neg v) (f64Pack neg m) := by
  obtain ⟨hm, hnear⟩ := h
  have h1 := unitsPerOne_pos
  have hm63 := hm.trans f64InfMag_lt
  refine ⟨by rwa [f64Finite, f64Mag_pack neg hm63, decide_eq_true_eq], fun z hz => ?_⟩
  rw [f64Real_pack neg hm63, f64Mag_pack neg hm63, f64Real_eq z, abs_signedUnits_sub]
  have hz' : f64Mag z < f64InfMag := by simpa [f64Finite] using hz
  obtain ⟨hle, htie⟩ := hnear _ hz'
  by_cases hs : f64Neg z = neg
  · rw [hs, abs_signedUnits_sub, div_le_div_iff_of_pos_right h1, div_left_inj' h1.ne']
    exact ⟨hle, fun hne => htie fun e => hne (by rw [e])⟩
  · have hu : (0 : ℝ) ≤ f64MagUnits (f64Mag z) := Nat.cast_nonneg _
    rw [Bool.eq_not_of_ne hs, abs_signedUnits_not_sub neg hu hv, div_le_div_iff_of_pos_right h1,
      div_left_inj' h1.ne']
    obtain ⟨hle0, htie0⟩ := hnear 0 (by norm_num [f64InfMag])
    rw [f64MagUnits_zero, Nat.cast_zero, zero_sub, abs_neg, abs_of_nonneg hv] at hle0 htie0
    refine ⟨by linarith, fun hne e => ?_⟩
    have hzero : (f64MagUnits (f64Mag z) : ℝ) = 0 := by linarith
    rw [hzero, signedUnits_eq_zero.mpr rfl] at hne
    refine htie0 (fun h0 => hne ?_) (by linarith)
    rw [← h0, f64MagUnits_zero, Nat.cast_zero, signedUnits_eq_zero.mpr rfl]

end Sys2Proof.Machine
end

section
/-! The four operations: on finite operands the exact result rounded once, and what infinities and NaN give. -/

namespace Sys2Proof.Machine

/-! ### Overflow -/

/-- The point halfway between the largest finite value and the infinity's place after it is `2^1024 - 2^970`. -/
theorem overflow_mid :
    (f64MagUnits (f64InfMag - 1) + f64MagUnits f64InfMag : ℝ) = 2 * ((2 ^ 1024 - 2 ^ 970) * unitsPerOne) := by
  have hlast : f64MagUnits (f64InfMag - 1) = 9007199254740991 * 2 ^ 2045 := by
    rw [show f64InfMag - 1 = 2045 * 2 ^ 52 + 9007199254740991 by norm_num [f64InfMag]]
    exact f64MagUnits_binade (by norm_num) (.inr (by norm_num))
  have hinf : f64MagUnits f64InfMag = 2 ^ 53 * 2 ^ 2045 := by
    rw [show f64InfMag = 2045 * 2 ^ 52 + 2 ^ 53 by norm_num [f64InfMag]]
    exact f64MagUnits_binade le_rfl (.inr (by norm_num))
  have h970 : (2 : ℝ) ^ 970 * 2 ^ 1074 = 2 ^ 2044 := (pow_add _ _ _).symm
  have h1024 : (2 : ℝ) ^ 1024 = 2 ^ 54 * 2 ^ 970 := pow_add _ 54 970
  have h2045 : (2 : ℝ) ^ 2045 = 2 * 2 ^ 2044 := pow_succ' _ _
  rw [hlast, hinf, unitsPerOne_eq, h1024]
  simp only [Nat.cast_mul, Nat.cast_pow, Nat.cast_ofNat]
  rw [h2045]
  generalize (2 : ℝ) ^ 970 = p, (2 : ℝ) ^ 1074 = u, (2 : ℝ) ^ 2044 = c at *
  linear_combination (2 - 2 ^ 55 : ℝ) * h970

/-- The nearest magnitude is finite exactly below that point: on it, the largest finite magnitude is odd. -/
theorem NearestMag.lt_infMag_iff {v : ℝ} {m : Nat} (h : NearestMag v m) :
    m < f64InfMag ↔ v < (2 ^ 1024 - 2 ^ 970) * unitsPerOne := by
  have hmid := overflow_mid
  generalize (2 ^ 1024 - 2 ^ 970) * unitsPerOne = c at hmid ⊢
  have hpos : 0 < f64InfMag := by norm_num [f64InfMag]
  have hodd : (f64InfMag - 1) % 2 = 1 := by norm_num [f64InfMag]
  refine ⟨fun hm => ?_, fun hv => Nat.lt_of_not_le fun hm => ?_⟩
  · obtain ⟨hle, htie⟩ := h.above hm
    have hmono := f64MagUnits_cast_le (show m ≤ f64InfMag - 1 by omega)
    refine lt_of_le_of_ne (by linarith) fun e => ?_
    have heven := htie (by linarith)
    have hlast : (f64MagUnits m : ℝ) = f64MagUnits (f64InfMag - 1) := by linarith
    obtain rfl := f64MagUnits_strictMono.injective (Nat.cast_injective hlast)
    omega
  · have hle := (h.below (show f64InfMag - 1 < m by omega)).1
    have hmono := f64MagUnits_cast_le hm
    linarith

/-- Rounding to the nearest magnitude, stopped at an infinity, is the rounding of the number. -/
theorem roundsTo_pack {v : ℝ} {m : Nat} (neg : Bool) (hv : 0 ≤ v) (h : NearestMag v m) :
    RoundsTo (signedUnits neg v) (f64Pack neg (min m f64InfMag)) := by
  have hthreshold : (v / unitsPerOne < 2 ^ 1024 - 2 ^ 970) ↔ m < f64InfMag := by
    rw [h.lt_infMag_iff, div_lt_iff₀ unitsPerOne_pos]
  rw [RoundsTo, abs_signedUnits neg hv, ← not_lt, hthreshold, not_lt]
  refine ⟨fun hm => ?_, fun hm => ?_⟩
  · rw [Nat.min_eq_left hm.le]
    exact nearestFinite_pack neg hv (h.finite hm)
  · have hv0 : v ≠ 0 := by
      rintro rfl
      have h0 : NearestMag 0 0 := by simpa using nearestMag_units 0
      have := h.unique h0
      norm_num [f64InfMag] at hm
      omega
    rw [Nat.min_eq_right hm, signedUnits_neg (lt_of_le_of_ne hv hv0.symm), f64Inf]

/-- The rounding of the model is the rounding of the exact fraction. -/
theorem roundsTo_roundMag (neg : Bool) (n : Nat) {d : Nat} (hd : 0 < d) :
    RoundsTo (signedUnits neg ((n : ℝ) / d)) (f64Pack neg (f64RoundMag n d)) :=
  roundsTo_pack neg (by positivity) (nearestMag_roundUnbounded n hd)

theorem roundsTo_zero (neg : Bool) : RoundsTo 0 (f64Pack neg 0) := by
  have h := roundsTo_pack neg le_rfl (by simpa using nearestMag_units 0 : NearestMag 0 0)
  rwa [signedUnits_eq_zero.mpr rfl, Nat.zero_min] at h

/-! ### Exact results in units -/

theorem f64Real_units (x : F64) : f64Real x = f64Units x / unitsPerOne := by
  rw [f64Real, f64Value, unitsPerOne, Rat.cast_div, Rat.cast_intCast, Rat.cast_natCast]

@[simp] theorem f64Real_negate (x : F64) : f64Real (f64Negate x) = -f64Real x := by
  rw [f64Real_eq, f64Real_eq, f64Neg_negate, f64Mag_negate]
  cases f64Neg x <;> simp [signedUnits, neg_div]

theorem f64One_pos : 0 < f64One := Nat.cast_pos.mp unitsPerOne_pos

/-- A product takes the exclusive or of the signs. -/
theorem signedUnits_mul (s t : Bool) (v w : ℝ) :
    signedUnits s v * signedUnits t w = signedUnits (s != t) (v * w / unitsPerOne) := by
  have h1 := unitsPerOne_pos.ne'
  cases s <;> cases t <;> simp [signedUnits] <;> field_simp

/-- A quotient takes the exclusive or of the signs. -/
theorem signedUnits_div (s t : Bool) {v w : ℝ} (hw : w ≠ 0) :
    signedUnits s v / signedUnits t w = signedUnits (s != t) (v * unitsPerOne / w) := by
  have h1 := unitsPerOne_pos.ne'
  cases s <;> cases t <;> simp [signedUnits] <;> field_simp

/-! ### Finite operands -/

theorem f64Add_of_finite {a b : F64} (ha : f64Finite a = true) (hb : f64Finite b = true) :
    f64Add a b = f64OfSum (f64Units a + f64Units b) (f64Neg a && f64Neg b) := by
  simp [f64Add, f64Finite_not_nan ha, f64Finite_not_nan hb, f64Finite_not_inf ha, f64Finite_not_inf hb]

theorem f64Mul_of_finite {a b : F64} (ha : f64Finite a = true) (hb : f64Finite b = true) :
    f64Mul a b = f64Pack (f64Neg a != f64Neg b)
      (f64RoundMag (f64MagUnits (f64Mag a) * f64MagUnits (f64Mag b)) f64One) := by
  simp only [f64Mul, f64Finite_not_nan ha, f64Finite_not_nan hb, f64Finite_not_inf ha, f64Finite_not_inf hb,
    Bool.or_self, Bool.false_eq_true, if_false]

theorem f64Div_of_finite {a b : F64} (ha : f64Finite a = true) (hb : f64Finite b = true) (h0 : f64Mag b ≠ 0) :
    f64Div a b = f64Pack (f64Neg a != f64Neg b)
      (f64RoundMag (f64MagUnits (f64Mag a) * f64One) (f64MagUnits (f64Mag b))) := by
  simp only [f64Div, f64Finite_not_nan ha, f64Finite_not_nan hb, f64Finite_not_inf ha, f64Finite_not_inf hb,
    h0, Bool.or_self, Bool.false_eq_true, if_false]

theorem f64Div_by_zero {a b : F64} (ha : f64Finite a = true) (hb : f64Finite b = true) (h0 : f64Mag b = 0) :
    f64Div a b = if f64Mag a = 0 then f64Nan else f64Inf (f64Neg a != f64Neg b) := by
  simp only [f64Div, f64Finite_not_nan ha, f64Finite_not_nan hb, f64Finite_not_inf ha, f64Finite_not_inf hb,
    h0, Bool.or_self, Bool.false_eq_true, if_false, if_true]

/-- A whole number of units is rounded as a number; a zero takes its sign from the addends. -/
theorem roundsTo_ofSum (v : Int) (z : Bool) : RoundsTo (v / unitsPerOne) (f64OfSum v z) := by
  unfold f64OfSum
  split_ifs with h0
  · simpa [h0] using roundsTo_zero z
  · have h := roundsTo_roundMag (decide (v < 0)) v.natAbs Nat.one_pos
    have e : signedUnits (decide (v < 0)) ((v.natAbs : ℝ) / (1 : Nat)) = v / unitsPerOne := by
      rw [Nat.cast_one, div_one, Nat.cast_natAbs, signedUnits]
      by_cases hv : v < 0
      · simp [hv, abs_of_neg hv]
      · simp [hv, abs_of_nonneg (not_lt.mp hv)]
    rwa [e] at h

theorem f64Add_rounds {a b : F64} (ha : f64Finite a = true) (hb : f64Finite b = true) :
    RoundsTo (f64Real a + f64Real b) (f64Add a b) := by
  rw [f64Add_of_finite ha hb, f64Real_units, f64Real_units, ← add_div, ← Int.cast_add]
  exact roundsTo_ofSum _ _

theorem f64Add_zeroSum {a b : F64} (ha : f64Finite a = true) (hb : f64Finite b = true) :
    ZeroSum (f64Real a + f64Real b) (f64Neg a && f64Neg b) (f64Add a b) := by
  intro h
  rw [f64Real_units, f64Real_units, ← add_div, ← Int.cast_add, div_eq_zero_iff,
    or_iff_left unitsPerOne_pos.ne', Int.cast_eq_zero] at h
  rw [f64Add_of_finite ha hb, f64OfSum, if_pos h]

theorem f64Mul_rounds {a b : F64} (ha : f64Finite a = true) (hb : f64Finite b = true) :
    RoundsTo (f64Real a * f64Real b) (f64Mul a b) ∧ f64Neg (f64Mul a b) = (f64Neg a != f64Neg b) := by
  rw [f64Mul_of_finite ha hb, f64Real_eq a, f64Real_eq b, signedUnits_mul, ← Nat.cast_mul]
  exact ⟨roundsTo_roundMag _ _ f64One_pos, f64Neg_pack _ (f64RoundMag_lt _ _)⟩

theorem f64Div_rounds {a b : F64} (ha : f64Finite a = true) (hb : f64Finite b = true) (h0 : f64Real b ≠ 0) :
    RoundsTo (f64Real a / f64Real b) (f64Div a b) ∧ f64Neg (f64Div a b) = (f64Neg a != f64Neg b) := by
  rw [Ne, f64Real_eq_zero] at h0
  have hu : 0 < f64MagUnits (f64Mag b) := Nat.pos_of_ne_zero (mt f64MagUnits_eq_zero.mp h0)
  rw [f64Div_of_finite ha hb h0, f64Real_eq a, f64Real_eq b, signedUnits_div _ _ (Nat.cast_ne_zero.mpr hu.ne'),
    unitsPerOne, ← Nat.cast_mul]
  exact ⟨roundsTo_roundMag _ _ hu, f64Neg_pack _ (f64RoundMag_lt _ _)⟩

/-- The difference is the sum with the negated subtrahend. -/
theorem finiteArithmetic {a b : F64} (ha : f64Finite a = true) (hb : f64Finite b = true) : FiniteArithmetic a b := by
  have hnb : f64Finite (f64Negate b) = true := by rwa [f64Finite_negate]
  have hsub := f64Add_rounds ha hnb
  have hsub0 := f64Add_zeroSum ha hnb
  rw [f64Real_negate, ← sub_eq_add_neg] at hsub hsub0
  rw [f64Neg_negate] at hsub0
  obtain ⟨hmul, hmulneg⟩ := f64Mul_rounds ha hb
  refine ⟨f64Add_rounds ha hb, f64Add_zeroSum ha hb, hsub, hsub0, hmul, hmulneg, f64Div_rounds ha hb,
    fun hb0 ha0 => ?_, fun hb0 ha0 => ?_⟩
  · rw [f64Div_by_zero ha hb (f64Real_eq_zero.mp hb0), if_neg (mt f64Real_eq_zero.mpr ha0)]
  · rw [f64Div_by_zero ha hb (f64Real_eq_zero.mp hb0), if_pos (f64Real_eq_zero.mp ha0), f64IsNan_nan]

/-! ### Infinite operands -/

theorem f64IsInf_not_nan {x : F64} (h : f64IsInf x = true) : f64IsNan x = false := by
  simp only [f64IsInf, f64IsNan, decide_eq_true_eq, decide_eq_false_iff_not] at *
  omega

theorem f64IsInf_mag_ne_zero {x : F64} (h : f64IsInf x = true) : f64Mag x ≠ 0 := by
  rw [f64IsInf, decide_eq_true_eq] at h
  norm_num [h, f64InfMag]

/-- There are two infinities. -/
theorem f64IsInf_eq {x : F64} (h : f64IsInf x = true) : x = f64Inf (f64Neg x) := by
  rw [f64IsInf, decide_eq_true_eq] at h
  refine f64_ext ?_ ?_
  · rw [f64Inf, f64Neg_pack _ f64InfMag_lt]
  · rw [f64Inf, f64Mag_pack _ f64InfMag_lt, h]

theorem f64Negate_inf {x : F64} (h : f64IsInf x = true) : f64Negate x = f64Inf (!f64Neg x) := by
  rw [← f64Neg_negate]
  exact f64IsInf_eq (by rwa [f64IsInf_negate])

section
variable {a b : F64}

theorem f64Add_inf_finite (ha : f64IsInf a = true) (hb : f64Finite b = true) : f64Add a b = a := by
  simp [f64Add, f64IsInf_not_nan ha, f64Finite_not_nan hb, ha, f64Finite_not_inf hb]

theorem f64Add_finite_inf (ha : f64Finite a = true) (hb : f64IsInf b = true) : f64Add a b = b := by
  simp [f64Add, f64IsInf_not_nan hb, f64Finite_not_nan ha, hb, f64Finite_not_inf ha]

theorem f64Add_inf_inf (ha : f64IsInf a = true) (hb : f64IsInf b = true) :
    f64Add a b = if f64Neg a = f64Neg b then a else f64Nan := by
  simp only [f64Add, f64IsInf_not_nan ha, f64IsInf_not_nan hb, ha, hb, Bool.or_self, Bool.false_eq_true, if_false,
    if_true, Bool.true_and]
  by_cases h : f64Neg a = f64Neg b <;> simp [h]

/-- A product with an infinity: of zero and an infinity it is a NaN. -/
theorem f64Mul_of_inf (hna : f64IsNan a = false) (hnb : f64IsNan b = false)
    (h : f64IsInf a = true ∨ f64IsInf b = true) :
    f64Mul a b = if f64Mag a = 0 ∨ f64Mag b = 0 then f64Nan else f64Inf (f64Neg a != f64Neg b) := by
  rw [f64Mul, hna, hnb, if_neg (by simp), if_pos (by simpa using h)]

theorem f64Div_inf_finite (ha : f64IsInf a = true) (hb : f64Finite b = true) :
    f64Div a b = f64Inf (f64Neg a != f64Neg b) := by
  simp [f64Div, f64IsInf_not_nan ha, f64Finite_not_nan hb, ha, f64Finite_not_inf hb]

theorem f64Div_finite_inf (ha : f64Finite a = true) (hb : f64IsInf b = true) :
    f64Div a b = f64Pack (f64Neg a != f64Neg b) 0 := by
  simp [f64Div, f64IsInf_not_nan hb, f64Finite_not_nan ha, hb, f64Finite_not_inf ha]

theorem f64Div_inf_inf (ha : f64IsInf a = true) (hb : f64IsInf b = true) : f64Div a b = f64Nan := by
  simp [f64Div, f64IsInf_not_nan ha, f64IsInf_not_nan hb, ha, hb]

end

theorem infiniteArithmetic (a b : F64) : InfiniteArithmetic a b := by
  refine ⟨fun ha hb => ?_, fun ha hb => ?_, fun ha hb => ?_⟩
  · have hmul := f64Mul_of_inf (f64IsInf_not_nan ha) (f64Finite_not_nan hb) (.inl ha)
    have hnb : f64Finite (f64Negate b) = true := by rwa [f64Finite_negate]
    refine ⟨f64Add_inf_finite ha hb, f64Add_inf_finite ha hnb, f64Div_inf_finite ha hb, fun h => ?_, fun h => ?_⟩
    · rw [hmul, if_neg (by simp [f64IsInf_mag_ne_zero ha, mt f64Real_eq_zero.mpr h])]
    · rw [hmul, if_pos (.inr (f64Real_eq_zero.mp h)), f64IsNan_nan]
  · have hmul := f64Mul_of_inf (f64Finite_not_nan ha) (f64IsInf_not_nan hb) (.inr hb)
    have hnb : f64IsInf (f64Negate b) = true := by rwa [f64IsInf_negate]
    refine ⟨f64Add_finite_inf ha hb, (f64Add_finite_inf ha hnb).trans (f64Negate_inf hb), f64Div_finite_inf ha hb,
      fun h => ?_, fun h => ?_⟩
    · rw [hmul, if_neg (by simp [f64IsInf_mag_ne_zero hb, mt f64Real_eq_zero.mpr h])]
    · rw [hmul, if_pos (.inl (f64Real_eq_zero.mp h)), f64IsNan_nan]
  · have hmul := f64Mul_of_inf (f64IsInf_not_nan ha) (f64IsInf_not_nan hb) (.inl ha)
    have hadd := f64Add_inf_inf ha hb
    have hsub : f64Sub a b = _ := f64Add_inf_inf ha (b := f64Negate b) (by rwa [f64IsInf_negate])
    rw [f64Neg_negate] at hsub
    refine ⟨fun h => ?_, fun h => ?_, ?_, ?_⟩
    · rw [hadd, hsub, if_pos h, if_neg (by simp [h])]
      exact ⟨rfl, f64IsNan_nan⟩
    · rw [hadd, hsub, if_neg h, if_pos (Bool.eq_not_of_ne h)]
      exact ⟨f64IsNan_nan, rfl⟩
    · rw [hmul, if_neg (by simp [f64IsInf_mag_ne_zero ha, f64IsInf_mag_ne_zero hb])]
    · rw [f64Div_inf_inf ha hb, f64IsNan_nan]

/-! ### NaN operands -/

theorem nanArithmetic {a b : F64} (h : f64IsNan a = true ∨ f64IsNan b = true) : NanArithmetic a b := by
  have hor : (f64IsNan a || f64IsNan b) = true := by simpa using h
  have hor' : (f64IsNan a || f64IsNan (f64Negate b)) = true := by rwa [f64IsNan_negate]
  rw [NanArithmetic, f64Sub, f64Add, f64Add, f64Mul, f64Div, if_pos hor, if_pos hor', if_pos hor, if_pos hor]
  exact ⟨f64IsNan_nan, f64IsNan_nan, f64IsNan_nan, f64IsNan_nan⟩

/-- Settles O52: each kind of operand by its own lemma; on finite operands the operation forms the exact units and
rounds them once (`roundsTo_roundMag`). -/
theorem binary64RoundsToNearestEven : Obligations.Binary64RoundsToNearestEven :=
  fun a b => ⟨finiteArithmetic, infiniteArithmetic a b, nanArithmetic⟩

end Sys2Proof.Machine
end

section
/-! The comparisons, the conversion of integers, and the NUM nearest an exact number. -/

namespace Sys2Proof.Machine

/-! ### Comparisons -/

/-- The units of a position in the order of the patterns (`f64Order`). -/
def orderUnits (o : Int) : Int := f64MagUnits o.toNat - f64MagUnits (-o).toNat

theorem f64Units_eq_orderUnits (x : F64) : f64Units x = orderUnits (f64Order x) := by
  unfold f64Units f64Order orderUnits
  split <;> simp

theorem orderUnits_strictMono : StrictMono orderUnits := by
  intro a b hab
  have hup := f64MagUnits_strictMono.monotone (show a.toNat ≤ b.toNat by omega)
  have hdown := f64MagUnits_strictMono.monotone (show (-b).toNat ≤ (-a).toNat by omega)
  unfold orderUnits
  rcases Int.lt_or_le 0 b with hb | hb
  · have := f64MagUnits_strictMono (show a.toNat < b.toNat by omega)
    omega
  · have := f64MagUnits_strictMono (show (-b).toNat < (-a).toNat by omega)
    omega

/-- The value of a position in the order of the patterns, the infinities at its two ends. -/
noncomputable def orderValue (o : Int) : EReal :=
  if o = f64InfMag then ⊤ else if o = -f64InfMag then ⊥ else ((orderUnits o / unitsPerOne : ℝ) : EReal)

theorem orderValue_strictMonoOn : StrictMonoOn orderValue (Set.Icc (-f64InfMag) f64InfMag) := by
  rintro a ⟨ha, -⟩ b ⟨-, hb⟩ hab
  have hunits : (orderUnits a / unitsPerOne : ℝ) < orderUnits b / unitsPerOne :=
    div_lt_div_of_pos_right (Int.cast_lt.mpr (orderUnits_strictMono hab)) unitsPerOne_pos
  unfold orderValue
  rw [if_neg (show a ≠ f64InfMag by omega), if_neg (show b ≠ -f64InfMag by omega)]
  split_ifs
  · exact bot_lt_top
  · exact EReal.bot_lt_coe _
  · exact EReal.coe_lt_top _
  · exact EReal.coe_lt_coe_iff.mpr hunits

theorem f64Extended_eq_orderValue {x : F64} (h : f64IsNan x = false) :
    f64Extended x = orderValue (f64Order x) := by
  have hinf : f64InfMag ≠ 0 := by norm_num [f64InfMag]
  rw [f64IsNan, decide_eq_false_iff_not, not_lt] at h
  rw [f64Extended, orderValue, f64Real_units, f64Units_eq_orderUnits, f64IsInf, f64Order]
  by_cases hm : f64Mag x = f64InfMag
  · have hflip : -(f64InfMag : Int) ≠ f64InfMag := by omega
    cases f64Neg x <;> simp [hm, hflip]
  · have hup : (if f64Neg x = true then -(f64Mag x : Int) else f64Mag x) ≠ f64InfMag := by split <;> omega
    have hdown : (if f64Neg x = true then -(f64Mag x : Int) else f64Mag x) ≠ -f64InfMag := by split <;> omega
    rw [if_neg (by simpa using hm), if_neg hup, if_neg hdown]

theorem f64Order_mem {x : F64} (h : f64IsNan x = false) : f64Order x ∈ Set.Icc (-f64InfMag : Int) f64InfMag := by
  rw [f64IsNan, decide_eq_false_iff_not, not_lt] at h
  rw [Set.mem_Icc, f64Order]
  split <;> omega

/-- Settles O53: on numbers the order of the patterns is the order of their values. -/
theorem binary64ComparisonsFollowValues : Obligations.Binary64ComparisonsFollowValues := by
  refine ⟨fun a b ha hb => ?_, fun a b h => ?_⟩
  · have hma := f64Order_mem ha
    have hmb := f64Order_mem hb
    rw [f64Extended_eq_orderValue ha, f64Extended_eq_orderValue hb, orderValue_strictMonoOn.lt_iff_lt hmb hma,
      orderValue_strictMonoOn.le_iff_le hmb hma, orderValue_strictMonoOn.eq_iff_eq hma hmb]
    simp [f64Gt, f64Ge, f64Eq, ha, hb]
  · rcases h with h | h <;> simp [f64Gt, f64Ge, f64Eq, h]

/-! ### Integers -/

/-- A whole number below `2^53` is a number of units that some finite magnitude has. -/
theorem exists_units_eq_nat {n : Nat} (h : n < 2 ^ 53) : ∃ m < f64InfMag, f64MagUnits m = n * 2 ^ 1074 := by
  rcases Nat.eq_zero_or_pos n with rfl | hn
  · exact ⟨0, by norm_num [f64InfMag], by rw [f64MagUnits_zero, Nat.zero_mul]⟩
  have hlow := Nat.log2_self_le hn.ne'
  have hhigh : n < 2 ^ (n.log2 + 1) := Nat.lt_log2_self
  have hlog : n.log2 < 53 := (Nat.log2_lt hn.ne').mpr h
  generalize n.log2 = l at *
  have hshift : 2 ^ 52 ≤ n * 2 ^ (52 - l) ∧ n * 2 ^ (52 - l) ≤ 2 ^ 53 := by
    constructor
    · calc 2 ^ 52 = 2 ^ l * 2 ^ (52 - l) := by rw [← Nat.pow_add]; congr 1; omega
        _ ≤ n * 2 ^ (52 - l) := Nat.mul_le_mul_right _ hlow
    · calc n * 2 ^ (52 - l) ≤ 2 ^ (l + 1) * 2 ^ (52 - l) := Nat.mul_le_mul_right _ hhigh.le
        _ = 2 ^ 53 := by rw [← Nat.pow_add]; congr 1; omega
  refine ⟨(1022 + l) * 2 ^ 52 + n * 2 ^ (52 - l), by unfold f64InfMag; omega, ?_⟩
  rw [f64MagUnits_binade hshift.2 (.inr hshift.1), Nat.mul_assoc, ← Nat.pow_add]
  exact congrArg (fun e => n * 2 ^ e) (show 52 - l + (1022 + l) = 1074 by omega)

/-- A whole magnitude is not rounded. -/
theorem roundUnbounded_units (m : Nat) : roundUnbounded (f64MagUnits m) 1 = m := by
  have h := nearestMag_roundUnbounded (f64MagUnits m) Nat.one_pos
  rw [Nat.cast_one, div_one] at h
  exact h.unique (nearestMag_units m)

theorem f64Value_pack_false {m : Nat} (h : m < 2 ^ 63) :
    f64Value (f64Pack false m) = (f64MagUnits m : ℚ) / f64One := by
  rw [f64Value, f64Units, f64Neg_pack _ h, f64Mag_pack _ h, if_neg Bool.false_ne_true, Int.cast_natCast]

/-- Settles O54: the units of `n` are those of a finite magnitude, so the rounding leaves it. -/
theorem toNumIsExact : Obligations.ToNumIsExact := by
  intro n hn
  obtain ⟨m, hm, hunits⟩ := exists_units_eq_nat (show n < 2 ^ 53 by omega)
  have hm63 := hm.trans f64InfMag_lt
  rw [← f64One] at hunits
  have hpack : f64OfNat n = f64Pack false m := by
    rw [f64OfNat, ← hunits, f64RoundMag_eq, roundUnbounded_units, Nat.min_eq_left hm.le]
  have hone : (f64One : ℚ) ≠ 0 := Nat.cast_ne_zero.mpr f64One_pos.ne'
  rw [hpack, f64Finite, f64Mag_pack _ hm63, f64Value_pack_false hm63, hunits, Nat.cast_mul,
    mul_div_cancel_right₀ _ hone]
  exact ⟨decide_eq_true hm, rfl⟩

/-! ### The NUM nearest a number -/

/-- Stopping at the largest finite magnitude makes the nearest magnitude the nearest finite one. -/
theorem NearestMag.clamp {v : ℝ} {m : Nat} (h : NearestMag v m) :
    NearestFiniteMag v (min (min m f64InfMag) (f64InfMag - 1)) := by
  have hinf : 0 < f64InfMag := by norm_num [f64InfMag]
  rcases Nat.lt_or_ge m f64InfMag with hm | hm
  · rw [show min (min m f64InfMag) (f64InfMag - 1) = m by omega]
    exact h.finite hm
  · rw [show min (min m f64InfMag) (f64InfMag - 1) = f64InfMag - 1 by omega]
    exact h.finite_beyond hm

/-- A rounding that is nearest to the magnitude of a number gives, with its sign, the NUM nearest it. -/
theorem nearestFinite_nearestUnits {x : ℝ} {n d : Nat} (h : NearestMag (|x| * unitsPerOne) (roundUnbounded n d)) :
    NearestFinite x (f64NearestUnits (decide (x < 0)) n d) := by
  have hnear := nearestFinite_pack (decide (x < 0)) (mul_nonneg (abs_nonneg x) unitsPerOne_pos.le) h.clamp
  rwa [signedUnits_abs] at hnear

/-- The units of a rational number, as `f64Lit` forms them. -/
theorem nearestMag_rat (q : ℚ) :
    NearestMag (|(q : ℝ)| * unitsPerOne) (roundUnbounded (q.num.natAbs * f64One) q.den) := by
  have h := nearestMag_roundUnbounded (q.num.natAbs * f64One) q.den_pos
  have e : ((q.num.natAbs * f64One : Nat) : ℝ) / q.den = |(q : ℝ)| * unitsPerOne := by
    rw [Nat.cast_mul, mul_div_right_comm, unitsPerOne, Rat.cast_def q, abs_div, Nat.abs_cast, Nat.cast_natAbs,
      Int.cast_abs]
  rwa [e] at h

theorem f64Lit_eq (q : ℚ) :
    f64Lit q = f64NearestUnits (decide ((q : ℝ) < 0)) (q.num.natAbs * f64One) q.den := by
  simp only [f64Lit, Rat.num_neg, Rat.cast_lt_zero]

/-- The grid point keeps the number's side of every multiple of `2^-1076`: at or above it. -/
theorem two_mul_le_stickyUnits {y : ℝ} (hy : 0 ≤ y) (i : Nat) :
    2 * i ≤ stickyUnits y ↔ (i : ℝ) ≤ y * 2 ^ 1076 := by
  unfold stickyUnits
  generalize hw : y * 2 ^ 1076 = w
  have hw0 : 0 ≤ w := by rw [← hw]; positivity
  rw [← Nat.le_floor_iff hw0]
  split <;> omega

/-- The grid point keeps the number's side of every multiple of `2^-1076`: at or below it. -/
theorem stickyUnits_le_two_mul {y : ℝ} (hy : 0 ≤ y) (i : Nat) :
    stickyUnits y ≤ 2 * i ↔ y * 2 ^ 1076 ≤ i := by
  unfold stickyUnits
  generalize hw : y * 2 ^ 1076 = w
  have hw0 : 0 ≤ w := by rw [← hw]; positivity
  split_ifs with h
  · have hi : w ≤ i ↔ ⌊w⌋₊ ≤ i := by rw [← Nat.cast_le (α := ℝ), h]
    rw [hi]
    omega
  · have hi : (i : ℝ) ≠ w := fun e => h (by rw [← e, Nat.floor_natCast])
    rw [le_iff_lt_or_eq (a := w), or_iff_left hi.symm, ← Nat.floor_lt hw0]
    omega

/-- The grid point of a number has the same nearest magnitude. -/
theorem NearestMag.of_stickyUnits {y : ℝ} (hy : 0 ≤ y) {m : Nat}
    (h : NearestMag ((stickyUnits y : ℝ) / (8 : Nat)) m) : NearestMag (y * unitsPerOne) m := by
  have hgrid : y * 2 ^ 1076 = 4 * (y * unitsPerOne) := by
    rw [unitsPerOne_eq, show (2 : ℝ) ^ 1076 = 2 ^ 1074 * 4 from (pow_add 2 1074 2).trans (by norm_num),
      ← mul_assoc, mul_comm]
  refine h.congr (fun j => ?_) fun j => ?_
  · have hside := stickyUnits_le_two_mul hy (2 * j)
    rw [hgrid, ← Nat.cast_le (α := ℝ)] at hside
    push_cast at hside ⊢
    exact ⟨fun hj => by linarith [hside.mp (by linarith)], fun hj => by linarith [hside.mpr (by linarith)]⟩
  · have hside := two_mul_le_stickyUnits hy (2 * j)
    rw [hgrid, ← Nat.cast_le (α := ℝ)] at hside
    push_cast at hside ⊢
    exact ⟨fun hj => by linarith [hside.mp (by linarith)], fun hj => by linarith [hside.mpr (by linarith)]⟩

theorem nearestMag_real (x : ℝ) : NearestMag (|x| * unitsPerOne) (roundUnbounded (stickyUnits |x|) 8) :=
  .of_stickyUnits (abs_nonneg x) (nearestMag_roundUnbounded _ (by norm_num))

/-- Settles O55: both are nearest the same number of units (`nearestMag_rat`, `nearestMag_real`), and the nearest
magnitude is unique. -/
theorem litIsNearest : Obligations.LitIsNearest := by
  refine ⟨fun q => ?_, fun x => nearestFinite_nearestUnits (nearestMag_real x), fun q => ?_⟩
  · rw [f64Lit_eq]
    exact nearestFinite_nearestUnits (nearestMag_rat q)
  · rw [f64Lit_eq, f64Nearest, f64NearestUnits, f64NearestUnits, f64RoundMag_eq, f64RoundMag_eq,
      (nearestMag_real q).unique (nearestMag_rat q)]

/-- Settles O56 by evaluation: `lit(0.85)` and `lit(1.008)` are closed terms that the kernel rounds. -/
theorem constantPatterns : Obligations.ConstantPatterns := ⟨by decide +kernel, by decide +kernel⟩

end Sys2Proof.Machine
end

section
/-! What a step does to the architectural state, said once: a command raises a fault, leaves the state as it is, or writes
the elements that 10_state.md R37 lists against it. -/

namespace Sys2Proof.Machine

variable {ρ α : Type}

/-! ### What a completing command writes -/

/-- `Writes N p x b i b'`: completing, command `i` (with `x` on `cmd_data`) can take the state from `b` to `b'` by a write
(10_state.md R37). A command that writes nothing has no constructor. -/
inductive Writes (N : Numerics ρ α) (p : Params ρ α) (x : α) (b : Block α) : Instr → Block α → Prop
  | srst : Writes N p x b .srst (Block.reset N.zero)
  | dclr : Writes N p x b .dclr { b with ck := 0#16, nibbuf := 0#4, nibv := false }
  | wclr : Writes N p x b .wclr { b with win := [] }
  | wpush (y : F64) (hx : N.finite x = true) : Writes N p x b (.wpush y) { b with win := slide p b.win x }
  | calclr : Writes N p x b .calclr { b with ca := tabulate (fun _ => N.zero), calcnt := 0#16 }
  | calacc (hw : b.win.length = p.nSym) (hc : b.calcnt ≠ 65535#16)
      (hg : ∀ i : Fin 19, N.finite (rawPower N p b.win i) = true) : Writes N p x b .calacc
      { b with ca := tabulate (fun i => N.fadd b.ca[i] (windowPowers N p b.win)[i]), calcnt := b.calcnt + 1#16, win := [] }
  | calfinAverage (hn : 4 ≤ b.calcnt.toNat) : Writes N p x b .calfin
      { b with nf := tabulate (fun i => N.fdiv b.ca[i] (N.toNum b.calcnt.toNat)), nfen := true }
  | calfinFail (hn : b.calcnt.toNat < 4) : Writes N p x b .calfin { b with nfen := false }
  | nfdis : Writes N p x b .nfdis { b with nfen := false }
  | clsHigh (k : Fin 16) (hv : b.nibv = false) : Writes N p x b .cls
      { b with nibbuf := BitVec.ofNat 4 k.val, nibv := true }
  | clsByte (hv : b.nibv = true) : Writes N p x b .cls { b with nibbuf := 0#4, nibv := false }
  | nclr : Writes N p x b .nclr { b with nibbuf := 0#4, nibv := false }
  | ckclr : Writes N p x b .ckclr { b with ck := 0#16 }
  | ckadd (n : Nat) : Writes N p x b (.ckadd n) { b with ck := b.ck + imm8Word n }

theorem readPower_raises_or_keeps (N : Numerics ρ α) (p : Params ρ α) (power : Fin 19 → α) (idx : Nat) (b : Block α) :
    (∃ c, c ≠ .illegal ∧ readPower N p power idx b = raise N c b) ∨ (readPower N p power idx b).1 = b := by
  rcases readPower_cases N p power idx b with ⟨_, e⟩ | ⟨_, _, e⟩ | ⟨_, _, e⟩ <;> rw [e]
  · exact .inl ⟨_, by decide, rfl⟩
  · exact .inl ⟨_, by decide, rfl⟩
  · exact .inr rfl

/-- Everything a command can do to the state: raise a fault, leave the state as it is, or write. -/
theorem blockStep_block_cases [Add ρ] [Mul ρ] [NatCast ρ] (N : Numerics ρ α) (p : Params ρ α) (i : Instr) (x : α)
    (b : Block α) :
    (∃ c, c ≠ .illegal ∧ blockStep N p i x b = raise N c b) ∨ (blockStep N p i x b).1 = b ∨
      Writes N p x b i (blockStep N p i x b).1 := by
  cases i <;> simp only [blockStep]
  case gzr n => exact (readPower_raises_or_keeps N p _ n b).imp_right .inl
  case gzn n => exact (readPower_raises_or_keeps N p _ n b).imp_right .inl
  case rdnf n =>
    rcases readNoise_cases N n b with ⟨_, e⟩ | ⟨_, e⟩ <;> rw [e]
    · exact .inl ⟨_, by decide, rfl⟩
    · exact .inr (.inl rfl)
  case rdft n =>
    rcases readFreq_cases N p n b with ⟨_, e⟩ | ⟨_, e⟩ <;> rw [e]
    · exact .inl ⟨_, by decide, rfl⟩
    · exact .inr (.inl rfl)
  case wpush y =>
    rcases windowPush_cases N p x b with ⟨hx, e⟩ | ⟨_, e⟩ <;> rw [e]
    · exact .inr (.inr (.wpush y hx))
    · exact .inl ⟨_, by decide, rfl⟩
  case calacc =>
    rcases calAccumulate_cases N p b with ⟨_, e⟩ | ⟨_, _, e⟩ | ⟨_, _, _, e⟩ | ⟨hw, hc, hg, e⟩ <;> rw [e]
    · exact .inl ⟨_, by decide, rfl⟩
    · exact .inl ⟨_, by decide, rfl⟩
    · exact .inl ⟨_, by decide, rfl⟩
    · exact .inr (.inr (.calacc hw hc ((windowPowers_all N p b.win).mp hg)))
  case calfin =>
    rcases calFinish_cases N b with ⟨hn, e⟩ | ⟨hn, e⟩ <;> rw [e]
    · exact .inr (.inr (.calfinAverage hn))
    · exact .inr (.inr (.calfinFail hn))
  case cls =>
    rcases classifySymbol_cases N p b with ⟨_, e⟩ | ⟨_, _, e⟩ | ⟨k, _, _, hv, e⟩ | ⟨_, _, _, hv, e⟩ <;> rw [e]
    · exact .inl ⟨_, by decide, rfl⟩
    · exact .inr (.inl rfl)
    · exact .inr (.inr (.clsHigh k hv))
    · exact .inr (.inr (.clsByte hv))
  case srst => exact .inr (.inr .srst)
  case dclr => exact .inr (.inr .dclr)
  case wclr => exact .inr (.inr .wclr)
  case calclr => exact .inr (.inr .calclr)
  case nfdis => exact .inr (.inr .nfdis)
  case nclr => exact .inr (.inr .nclr)
  case ckclr => exact .inr (.inr .ckclr)
  case ckadd n => exact .inr (.inr (.ckadd n))
  case nop | rdst | ckrd | ckcmp => exact .inr (.inl rfl)

/-! ### What an instruction and a step leave -/

/-- An executed instruction leaves the command function's state, one response with its status word, and the parameters. -/
theorem exec_next {i : Instr} {s t : State} (h : exec i s = .next t) :
    t.toBlock = (blockStep binary64 s.params i i.data s.toBlock).1 ∧ t.params = s.params ∧
      ∃ r, t.out = r :: s.out ∧ r.stat = (blockStep binary64 s.params i i.data s.toBlock).2.stat := by
  rcases exec_eq_blockStep i s with e | ⟨-, e⟩ <;> obtain rfl := Host.Outcome.next.inj (e.symm.trans h)
  · exact ⟨rfl, rfl, _, rfl, rfl⟩
  · refine ⟨State.finishPower_toBlock _ _, State.finishPower_params _ _, ?_⟩
    rcases State.finishPower_cases s (blockStep binary64 s.params i i.data s.toBlock) with ⟨-, e'⟩ | ⟨-, e'⟩ <;> rw [e']
    · exact ⟨_, rfl, rfl⟩
    · exact ⟨_, rfl, rfl⟩

/-- What each event leaves of the architectural state: nothing presented, a hardware reset, an instruction, or an illegal
word. -/
theorem step_block_cases {s t : State} (h : step s = .next t) :
    (s.inputs = [] ∧ t.toBlock = s.toBlock) ∨
    (∃ c rest, s.inputs = .reset c :: rest ∧ t.toBlock = Block.reset 0#64) ∨
    (∃ c rest i, s.inputs = .command c :: rest ∧ decode c.word c.data = .ok i ∧
      t.toBlock = (blockStep binary64 s.params i i.data s.toBlock).1) ∨
    (∃ c rest, s.inputs = .command c :: rest ∧ t.toBlock = (raise binary64 .illegal s.toBlock).1) := by
  rcases step_cases s with ⟨hin, e⟩ | ⟨c, rest, hin, e⟩ | ⟨c, rest, i, hin, hd, e⟩ | ⟨c, rest, _, hin, -, e⟩ <;>
    rw [e] at h
  · exact .inl ⟨hin, by cases h; rfl⟩
  · exact .inr (.inl ⟨c, rest, hin, by cases h; rfl⟩)
  · exact .inr (.inr (.inl ⟨c, rest, i, hin, hd, (exec_next h).1⟩))
  · exact .inr (.inr (.inr ⟨c, rest, hin, by cases h; rfl⟩))

/-- No step writes the parameters (10_state.md R30). -/
theorem step_params {s t : State} (h : step s = .next t) : t.params = s.params := by
  rcases step_cases s with ⟨_, e⟩ | ⟨_, _, _, e⟩ | ⟨_, _, _, _, _, e⟩ | ⟨_, _, _, _, _, e⟩ <;> rw [e] at h
  · cases h; rfl
  · cases h; rfl
  · exact (exec_next h).2.1
  · cases h; rfl

end Sys2Proof.Machine
end

section
/-! The word of a decoded instruction (30_encoding.md R51 to R54). -/

namespace Sys2Proof

theorem decodeOperand_ok {width : Nat} {w : Word} {build : Nat → Instr} {i : Instr}
    (h : decodeOperand width w build = .ok i) : operandBits w < 2 ^ width ∧ build (operandBits w) = i := by
  unfold decodeOperand at h
  split at h
  · exact ⟨‹_›, Except.ok.inj h⟩
  · cases h

/-- A word that decodes has the opcode and the operand of its instruction in its fields. -/
theorem decode_fields {w : Word} {d : F64} {i : Instr} (h : decode w d = .ok i) :
    opcodeByte w = i.opcode ∧ operandBits w = i.operand := by
  unfold decode at h
  split at h
  case h_21 => cases h
  all_goals
    obtain ⟨hlt, rfl⟩ := decodeOperand_ok h
    refine ⟨‹_›, ?_⟩
    simp only [Instr.operand] <;> omega

/-- A word that decodes is the word its instruction is presented as. -/
theorem word_of_decode {w : Word} {d : F64} {i : Instr} (h : decode w d = .ok i) : w = (encode i).word := by
  obtain ⟨hop, harg⟩ := decode_fields h
  rw [encode, ← hop, ← harg, opcodeByte, operandBits, Nat.div_add_mod', BitVec.ofNat_toNat, BitVec.setWidth_eq]

end Sys2Proof
end

section
/-! The frame of every command (10_state.md R37), and the sticky bits of `ESR` (R28). -/

namespace Sys2Proof.Machine

variable {ρ α : Type}

/-- The columns of 10_state.md R37 that hold for a command whether it completes or faults: an element changes only by a
command listed against it. -/
structure Frame (i : Instr) (b b' : Block α) : Prop where
  win : (∀ x, i ≠ .wpush x) → i ≠ .wclr → i ≠ .calacc → i ≠ .srst → b'.win = b.win
  nf : i ≠ .calfin → i ≠ .srst → b'.nf = b.nf
  nfen : i ≠ .calfin → i ≠ .nfdis → i ≠ .srst → b'.nfen = b.nfen
  cal : i ≠ .calclr → i ≠ .calacc → i ≠ .srst → b'.ca = b.ca ∧ b'.calcnt = b.calcnt
  ck : (∀ n, i ≠ .ckadd n) → i ≠ .ckclr → i ≠ .dclr → i ≠ .srst → b'.ck = b.ck
  nibble : i ≠ .cls → i ≠ .nclr → i ≠ .dclr → i ≠ .srst → b'.nibbuf = b.nibbuf ∧ b'.nibv = b.nibv

variable {N : Numerics ρ α} {p : Params ρ α} {i : Instr} {x : α} {b b' : Block α}

theorem Frame.refl : Frame i b b := by constructor <;> intros <;> simp

theorem Frame.raise (c : Cause) : Frame i b (raise N c b).1 := by constructor <;> intros <;> simp

/-- No write of `Writes` reaches an element its command is not listed against. -/
theorem Writes.frame (h : Writes N p x b i b') : Frame i b b' := by
  cases h <;> constructor <;> simp

theorem Writes.esr (h : Writes N p x b i b') (hi : i ≠ .srst) : b'.esr = b.esr := by
  cases h
  case srst => exact absurd rfl hi
  all_goals rfl

/-- Only CALFIN after four windows raises `NFEN` (10_state.md R23). -/
theorem Writes.nfen_rise (h : Writes N p x b i b') (h0 : b.nfen = false) (h1 : b'.nfen = true) :
    i = .calfin ∧ 4 ≤ b.calcnt.toNat := by
  cases h
  case calfinAverage hn => exact ⟨rfl, hn⟩
  all_goals simp [h0] at h1

/-- `raise` keeps every `ESR` bit that is set. -/
theorem raise_esr_sticky (c : Cause) : b.esr &&& (raise N c b).1.esr = b.esr := by
  ext n hn
  rw [raise_esr, BitVec.getElem_and, BitVec.getElem_or]
  exact inf_sup_self

section
variable [Add ρ] [Mul ρ] [NatCast ρ]

theorem blockStep_frame : Frame i b (blockStep N p i x b).1 := by
  rcases blockStep_block_cases N p i x b with ⟨c, -, e⟩ | e | hw
  · rw [e]; exact .raise c
  · rw [e]; exact .refl
  · exact hw.frame

theorem blockStep_esr_of_completes (hi : i ≠ .srst) (hr : (blockStep N p i x b).2.fault = 0#4) :
    (blockStep N p i x b).1.esr = b.esr := by
  rcases blockStep_block_cases N p i x b with ⟨c, -, e⟩ | e | hw
  · rw [e, raise_fault] at hr
    cases c <;> exact absurd hr (by decide)
  · rw [e]
  · exact hw.esr hi

theorem blockStep_esr_sticky (hi : i ≠ .srst) : b.esr &&& (blockStep N p i x b).1.esr = b.esr := by
  rcases blockStep_block_cases N p i x b with ⟨c, -, e⟩ | e | hw
  · rw [e, raise_esr_sticky]
  · rw [e, BitVec.and_self]
  · rw [hw.esr hi, BitVec.and_self]

theorem blockStep_nfen_rise (h0 : b.nfen = false) (h1 : (blockStep N p i x b).1.nfen = true) :
    i = .calfin ∧ 4 ≤ b.calcnt.toNat := by
  rcases blockStep_block_cases N p i x b with ⟨c, -, e⟩ | e | hw
  · simp [e, h0] at h1
  · simp [e, h0] at h1
  · exact hw.nfen_rise h0 h1

end

/-- Settles O44: the columns are those of `Frame`, which every command keeps. -/
theorem unlistedCommandsLeaveStateAlone : Obligations.UnlistedCommandsLeaveStateAlone := by
  intro i s t h
  obtain ⟨hblock, -, r, hout, hstat⟩ := exec_next h
  have hframe : Frame i s.toBlock t.toBlock := hblock ▸ blockStep_frame
  refine ⟨hframe.win, hframe.nf, hframe.nfen, hframe.cal, hframe.ck, hframe.nibble, fun hi r' hout' hr => ?_⟩
  obtain ⟨rfl, -⟩ := List.cons.inj (hout.symm.trans hout')
  rw [hblock]
  exact blockStep_esr_of_completes hi (by rwa [Response.fault, ← hstat])

/-- Settles O45: only SRST's word decodes to SRST, and every other command and an illegal word keep the bits. -/
theorem esrBitsAreSticky : Obligations.EsrBitsAreSticky := by
  intro s t c rest hin h hword
  rcases step_block_cases h with ⟨hin', -⟩ | ⟨c', _, hin', -⟩ | ⟨c', _, i, hin', hd, hb⟩ | ⟨c', _, -, hb⟩
  · simp [hin] at hin'
  · simp [hin] at hin'
  · obtain ⟨rfl, -⟩ : c = c' ∧ _ := by simpa [hin] using hin'
    have hi : i ≠ .srst := by
      rintro rfl
      exact hword (word_of_decode hd)
    rw [hb]
    exact blockStep_esr_sticky hi
  · rw [hb]
    exact raise_esr_sticky _

/-- Settles O46: of the four events only an instruction can raise `NFEN`, and that is CALFIN, whose word is the only one
that decodes to it. -/
theorem onlyCalfinEnablesNormalisation : Obligations.OnlyCalfinEnablesNormalisation := by
  intro s t h h0 h1
  rcases step_block_cases h with ⟨-, hb⟩ | ⟨_, _, -, hb⟩ | ⟨c, rest, i, hin, hd, hb⟩ | ⟨_, _, -, hb⟩ <;> rw [hb] at h1
  · simp [h0] at h1
  · simp at h1
  · obtain ⟨rfl, hn⟩ := blockStep_nfen_rise h0 h1
    refine ⟨hn, c.data, rest, ?_⟩
    rw [hin]
    exact congrArg (fun w => .command ⟨w, c.data⟩ :: rest) (word_of_decode hd)
  · simp [h0] at h1

end Sys2Proof.Machine
end

section
/-! Reset, and the legal states (log entry 13). -/

namespace Sys2Proof.Machine

variable {p : Params ℚ F64} {b b' : Block F64}

/-- Settles O40: each element by the law of `Block.reset`, and `STATUS` because an empty window is not full. -/
theorem resetValues : Obligations.ResetValues := by
  intro p
  refine ⟨rfl, Block.reset_nf_get _, rfl, Block.reset_ca_get _, rfl, rfl, rfl, rfl, rfl, fun hp => ?_⟩
  have hfull : (Block.reset (0#64 : F64)).wfull p = false := by simp [Block.wfull, Block.wlen, hp.ne]
  rw [State.resetWith_toBlock, statusWord, hfull]
  rfl

theorem legal_reset : Legal p (Block.reset 0#64) where
  window_bounded := Nat.zero_le _
  nibble_canonical _ := rfl
  esr_reserved := by decide
  samples_finite := by simp
  accumulators_numbers i := by rw [Block.reset_ca_get]; decide
  noise_numbers i := by rw [Block.reset_nf_get]; decide

/-- Settles O50: no sample, no pending nibble, no `ESR` bit, and every register `+0`. -/
theorem resetIsLegal : Obligations.ResetIsLegal := fun _ => legal_reset

/-! ### Every operation keeps a legal state legal -/

/-- No fault code is 0, 6 or 7, so no fault sets a reserved bit of `ESR` (10_state.md R28). -/
theorem esrBit_reserved (c : Cause) : c.esrBit &&& 0xC1#8 = 0#8 := by cases c <;> decide

theorem Legal.raise (h : Legal p b) (c : Cause) : Legal p (raise binary64 c b).1 :=
  { h with esr_reserved := by rw [raise_esr, BitVec.and_or_distrib_right, h.esr_reserved, esrBit_reserved]; rfl }

theorem length_slide_le {ρ α : Type} {p : Params ρ α} {w : List α} (h : w.length ≤ p.nSym) (x : α) :
    (slide p w x).length ≤ p.nSym := by
  have hlen : (w ++ [x]).length = w.length + 1 := List.length_append
  unfold slide
  split
  · rw [List.length_drop]; omega
  · omega

theorem mem_of_mem_slide {ρ α : Type} {p : Params ρ α} {w : List α} {x y : α} (h : y ∈ slide p w x) :
    y ∈ w ∨ y = x := by
  unfold slide at h
  split at h
  · simpa using List.mem_of_mem_drop h
  · simpa using h

/-- `toNum(n)` is a divisor that makes no NaN: finite, and zero for no `n` but 0. -/
theorem f64Mag_ofNat_ne_zero {n : Nat} (h0 : n ≠ 0) (hn : n < 65536) : f64Mag (f64OfNat n) ≠ 0 := by
  rw [Ne, ← f64Real_eq_zero, f64Real, (toNumIsExact n hn).2]
  exact_mod_cast h0

/-- The average of CALFIN is a number when the accumulator is one, because CALCNT is not zero. -/
theorem average_not_nan {a : F64} {n : BitVec 16} (ha : f64IsNan a = false) (hn : 4 ≤ n.toNat) :
    f64IsNan (f64Div a (f64OfNat n.toNat)) = false :=
  f64Div_not_nan ha (toNumIsExact _ n.isLt).1 (f64Mag_ofNat_ne_zero (by omega) n.isLt)

theorem Legal.writes {i : Instr} {x : F64} (h : Legal p b) (hw : Writes binary64 p x b i b') : Legal p b' := by
  cases hw with
  | srst => exact legal_reset
  | wclr => exact { h with window_bounded := Nat.zero_le _, samples_finite := by simp }
  | wpush y hx =>
    refine { h with window_bounded := length_slide_le h.window_bounded x, samples_finite := fun y hy => ?_ }
    rcases mem_of_mem_slide hy with hy | rfl
    · exact h.samples_finite y hy
    · exact hx
  | calclr => exact { h with accumulators_numbers := fun i => by rw [tabulate_get]; decide }
  | calacc _ _ hg =>
    refine { h with window_bounded := Nat.zero_le _, samples_finite := by simp, accumulators_numbers := fun i => ?_ }
    rw [tabulate_get, windowPowers, tabulate_get]
    exact f64Add_not_nan (h.accumulators_numbers i) (hg i)
  | calfinAverage hn =>
    refine { h with noise_numbers := fun i => ?_ }
    rw [tabulate_get]
    exact average_not_nan (h.accumulators_numbers i) hn
  | clsHigh => exact { h with nibble_canonical := nofun }
  | dclr | clsByte | nclr => exact { h with nibble_canonical := fun _ => rfl }
  | calfinFail | nfdis | ckclr | ckadd => exact { h with }

theorem Legal.blockStep (h : Legal p b) (i : Instr) (x : F64) : Legal p (blockStep binary64 p i x b).1 := by
  rcases blockStep_block_cases binary64 p i x b with ⟨c, -, e⟩ | e | hw
  · rw [e]; exact h.raise c
  · rw [e]; exact h
  · exact h.writes hw

/-- Settles O51: each of the four events keeps the parameters and a legal state. -/
theorem stepKeepsLegal : Obligations.StepKeepsLegal := by
  intro s t hs h
  rw [step_params h]
  rcases step_block_cases h with ⟨-, hb⟩ | ⟨_, _, -, hb⟩ | ⟨_, _, i, -, -, hb⟩ | ⟨_, _, -, hb⟩ <;> rw [hb]
  · exact hs
  · exact legal_reset
  · exact hs.blockStep i _
  · exact hs.raise .illegal

end Sys2Proof.Machine
end

section
/-! The response of every command as a function of what the instance holds, and the reading commands
(20_memory.md R44, R47). -/

namespace Sys2Proof.Machine

/-! ### The response of an instruction -/

/-- The response to a computed power: where the power is a NaN, the `n`-th free NaN stands in its place
(log entry 2). -/
def Response.freed (n : Nat) (r : Response F64) : Response F64 :=
  if f64IsNan r.data then { r with data := freeNan n } else r

@[simp] theorem Response.freed_stat (n : Nat) (r : Response F64) : (r.freed n).stat = r.stat := by
  unfold Response.freed; split <;> rfl

/-- Which free NaN is used shows only where the power is a NaN. -/
theorem Response.freed_data (n n' : Nat) (r : Response F64) :
    (r.freed n').data = (r.freed n).data ∨ (f64IsNan (r.freed n).data = true ∧ f64IsNan (r.freed n').data = true) := by
  unfold Response.freed
  split
  · exact .inr ⟨freeNan_isNan n, freeNan_isNan n'⟩
  · exact .inl rfl

@[simp] theorem State.finishPower_out (s : State) (d : Done F64) :
    (s.finishPower d).out = d.2.freed s.nanCount :: s.out := by
  unfold State.finishPower Response.freed; split <;> rfl

/-- GZR and GZN, the commands that answer a computed power (41_detector.md R79, R80). -/
def answersPower : Instr → Bool
  | .gzr _ | .gzn _ => true
  | _ => false

/-- What instruction `i` answers in architectural state `b` with `n` free NaN values used. -/
def execResponse (p : Params ℚ F64) (b : Block F64) (n : Nat) (i : Instr) : Response F64 :=
  if answersPower i then (blockStep binary64 p i i.data b).2.freed n else (blockStep binary64 p i i.data b).2

theorem exec_out {i : Instr} {s t : State} (h : exec i s = .next t) :
    t.out = execResponse s.params s.toBlock s.nanCount i :: s.out := by
  cases i
  case gzr | gzn => cases h; exact State.finishPower_out _ _
  all_goals cases h; rfl

section
variable (p : Params ℚ F64) (b : Block F64) (n n' : Nat) (i : Instr)

@[simp] theorem execResponse_stat : (execResponse p b n i).stat = (blockStep binary64 p i i.data b).2.stat := by
  unfold execResponse; split <;> simp

theorem execResponse_data :
    (execResponse p b n' i).data = (execResponse p b n i).data ∨
      (f64IsNan (execResponse p b n i).data = true ∧ f64IsNan (execResponse p b n' i).data = true) := by
  unfold execResponse
  split
  · exact Response.freed_data n n' _
  · exact .inl rfl

end

/-! ### The reading commands -/

/-- The commands of 20_memory.md R44: RDST, CKRD, CKCMP, RDNF, RDFT, GZR and GZN. -/
def IsReading (i : Instr) : Prop :=
  i = .rdst ∨ i = .ckrd ∨ (∃ n, i = .ckcmp n) ∨ (∃ n, i = .rdnf n) ∨ (∃ n, i = .rdft n) ∨ (∃ n, i = .gzr n) ∨
    (∃ n, i = .gzn n)

section
variable {ρ α : Type} {N : Numerics ρ α} {p : Params ρ α} {i : Instr} {x : α} {b b' : Block α}

theorem Writes.not_reading (h : Writes N p x b i b') : ¬ IsReading i := by
  cases h <;> simp [IsReading]

theorem raise_fault_ne_zero (c : Cause) : (raise N c b).2.fault ≠ 0#4 := by
  rw [raise_fault]
  cases c <;> decide

/-- A reading command that completes changes nothing: it has raised no fault, and no write is its own. -/
theorem blockStep_reading [Add ρ] [Mul ρ] [NatCast ρ] (hi : IsReading i)
    (hr : (blockStep N p i x b).2.fault = 0#4) : (blockStep N p i x b).1 = b := by
  rcases blockStep_block_cases N p i x b with ⟨c, -, e⟩ | e | hw
  · rw [e] at hr
    exact absurd hr (raise_fault_ne_zero c)
  · exact e
  · exact absurd hi hw.not_reading

end

/-- Settles O47: a reading command leaves the state, so the second one runs in the state of the first; the two responses
can differ only in which free NaN they carry. -/
theorem readCommandsAreIdempotent : Obligations.ReadCommandsAreIdempotent := by
  intro i s t u r r' hi hst hr hfault htu hr'
  obtain ⟨htb, htp, -⟩ := exec_next hst
  obtain ⟨hub, -, -⟩ := exec_next htu
  obtain rfl := (List.cons.inj (hr.symm.trans (exec_out hst))).1
  obtain rfl := (List.cons.inj (hr'.symm.trans (exec_out htu))).1
  have hkeep : (blockStep binary64 s.params i i.data s.toBlock).1 = s.toBlock :=
    blockStep_reading hi (by rwa [Response.fault, execResponse_stat] at hfault)
  rw [hkeep] at htb
  rw [htp, htb] at hub ⊢
  refine ⟨rfl, hub.trans hkeep, ?_, execResponse_data _ _ _ _ i⟩
  rw [execResponse_stat, execResponse_stat]

/-! ### A command at the port -/

section
variable {s : State} {c : Command} {rest : List Input}

theorem step_of_decode_ok {i : Instr} (hin : s.inputs = .command c :: rest) (hd : decode c.word c.data = .ok i) :
    step s = exec i s.takeInput := by
  simp [step, hin, hd]

theorem step_of_decode_error {e : DecodeError} (hin : s.inputs = .command c :: rest)
    (hd : decode c.word c.data = .error e) : step s = .next s.takeInput.answerIllegal := by
  simp [step, hin, hd]

end

/-- Settles O48: the next state and the response of an instruction (`exec_next`, `exec_out`) and of an illegal word are
functions of the architectural state, the parameters and the count of free NaN values. -/
theorem commandDependsOnOwnStateOnly : Obligations.CommandDependsOnOwnStateOnly := by
  intro s s' t t' c rest rest' hin hin' hblock hparams hnan h h'
  cases hd : decode c.word c.data with
  | ok i =>
    rw [step_of_decode_ok hin hd] at h
    rw [step_of_decode_ok hin' hd] at h'
    have hb := (exec_next h).1
    have hb' := (exec_next h').1
    have hout := exec_out h
    have hout' := exec_out h'
    simp only [State.takeInput_toBlock, State.takeInput_params, State.takeInput_nanCount, State.takeInput_out,
      ← hblock, ← hparams, ← hnan] at hb hb' hout hout'
    exact ⟨hb.trans hb'.symm, _, hout, hout'⟩
  | error e =>
    obtain rfl := Host.Outcome.next.inj ((step_of_decode_error hin hd).symm.trans h)
    obtain rfl := Host.Outcome.next.inj ((step_of_decode_error hin' hd).symm.trans h')
    have hsame : raise binary64 .illegal s'.takeInput.toBlock = raise binary64 .illegal s.takeInput.toBlock := by
      simp [hblock]
    simp only [State.answerIllegal_toBlock, State.answerIllegal_out, State.takeInput_out, hsame, true_and]
    exact ⟨_, rfl, rfl⟩

end Sys2Proof.Machine
end

section
/-! The fields of a command word, the rows of the opcode map, and the commands a word can decode to
(30_encoding.md R51 to R54). -/

namespace Sys2Proof

/-! ### The fields of an instruction -/

/-- The width of the operand field: format Z is 0, X is 5, B is 8, H is 16 (30_encoding.md R51). -/
def Instr.width : Instr → Nat
  | .gzr _ | .gzn _ | .rdnf _ | .rdft _ => 5
  | .ckadd _ => 8
  | .ckcmp _ => 16
  | _ => 0

/-- The same command with operand `n` and data operand `d`, each where its format has one. -/
def Instr.withFields (n : Nat) (d : F64) : Instr → Instr
  | .wpush _ => .wpush d
  | .gzr _ => .gzr n
  | .gzn _ => .gzn n
  | .rdnf _ => .rdnf n
  | .rdft _ => .rdft n
  | .ckadd _ => .ckadd n
  | .ckcmp _ => .ckcmp n
  | i => i

section
variable (i : Instr) (n : Nat) (d : F64)

theorem Instr.opcode_lt : i.opcode < 256 := by cases i <;> simp [Instr.opcode]

theorem Instr.width_le : i.width ≤ 24 := by cases i <;> simp [Instr.width]

@[simp] theorem Instr.withFields_self : i.withFields i.operand i.data = i := by cases i <;> rfl

@[simp] theorem Instr.mnemonic_withFields : (i.withFields n d).mnemonic = i.mnemonic := by cases i <;> rfl

/-- An instruction is well formed exactly when its operand fits its field. -/
theorem Instr.wellFormed_iff : i.wellFormed = true ↔ i.operand < 2 ^ i.width := by
  cases i <;> simp [Instr.wellFormed, Instr.operand, Instr.width, Nat.lt_succ_iff]

end

/-! ### The decoder by the fields of the word -/

section
variable {w : Word} {d : F64} {i : Instr}

/-- A word with a command's opcode and clear reserved bits decodes to that command, with the operand of the word and the
data presented. -/
theorem decode_of_fields (hop : opcodeByte w = i.opcode) (hlt : operandBits w < 2 ^ i.width) (d : F64) :
    decode w d = .ok (i.withFields (operandBits w) d) := by
  cases i <;> rw [decode, hop] <;> exact if_pos hlt

theorem wellFormed_of_decode (h : decode w d = .ok i) : i.wellFormed = true := by
  unfold decode at h
  split at h
  case h_21 => cases h
  all_goals
    obtain ⟨hlt, rfl⟩ := decodeOperand_ok h
    simp only [Instr.wellFormed, decide_eq_true_eq] <;> omega

/-- The fields of a word that decodes: the opcode of its instruction, and no bit above the operand field. -/
theorem fields_of_decode (h : decode w d = .ok i) : opcodeByte w = i.opcode ∧ operandBits w < 2 ^ i.width := by
  obtain ⟨hop, harg⟩ := decode_fields h
  exact ⟨hop, harg ▸ i.wellFormed_iff.mp (wellFormed_of_decode h)⟩

/-- The fields of the word a well-formed instruction is presented as. -/
theorem fields_of_encode (h : i.wellFormed = true) :
    opcodeByte (encode i).word = i.opcode ∧ operandBits (encode i).word = i.operand := by
  refine Laws.OpcodeByte.of_bounds i.opcode_lt (fun hi => ?_) h
  exact (i.wellFormed_iff.mp hi).trans_le (Nat.pow_le_pow_right (by decide) i.width_le)

theorem map_decodeOperand (f : Instr → Instr) (width : Nat) (w : Word) (build : Nat → Instr) :
    (decodeOperand width w build).map f = decodeOperand width w (f ∘ build) := by
  unfold decodeOperand
  split <;> rfl

/-- Presented with other data, a word is the same command with that data, or refused for the same reason. -/
theorem decode_with_data (w : Word) (d d' : F64) :
    decode w d' = (decode w d).map fun i => i.withFields i.operand d' := by
  unfold decode
  split
  case h_21 => rfl
  all_goals rw [map_decodeOperand]; rfl

/-- A decoded instruction carries the data presented, if it carries any. -/
theorem data_of_decode (h : decode w d = .ok i) : i.withFields i.operand d = i := by
  have hself := decode_with_data w d d
  rw [h] at hself
  exact (Except.ok.inj hself).symm

end

/-- Settles O1: the fields of the encoded word are the instruction's own. -/
theorem decodeEncodeRoundTrip : Obligations.DecodeEncodeRoundTrip := by
  intro i hi
  obtain ⟨hop, harg⟩ := fields_of_encode hi
  rw [decode_of_fields hop (harg ▸ i.wellFormed_iff.mp hi), harg]
  exact congrArg _ i.withFields_self

/-- Settles O2: the operand lies in its field, and the fields are the whole word. -/
theorem decodedWordIsItsEncoding : Obligations.DecodedWordIsItsEncoding :=
  fun _ _ _ h => ⟨wellFormed_of_decode h, (word_of_decode h).symm⟩

/-! ### The rows of the opcode map -/

/-- The row of 30_encoding.md R53 for a command: its opcode in bits 31:24, and a mask without the operand field. -/
def Instr.row (i : Instr) : OpcodeRow where
  mnemonic := i.mnemonic
  pattern := BitVec.ofNat 32 (i.opcode * 2 ^ 24)
  mask := BitVec.allOnes 32 <<< i.width

/-- Every command once, its operands zero, in the order of 30_encoding.md R53. -/
def zeroForms : List Instr :=
  [.nop, .srst, .dclr, .rdst, .wclr, .wpush 0#64, .gzr 0, .gzn 0, .calclr, .calacc, .calfin, .nfdis, .rdnf 0, .cls,
    .nclr, .rdft 0, .ckclr, .ckadd 0, .ckrd, .ckcmp 0]

theorem opcodeMap_eq_map_row : opcodeMap = zeroForms.map Instr.row := by decide

@[simp] theorem Instr.row_withFields (i : Instr) (n : Nat) (d : F64) : (i.withFields n d).row = i.row := by
  cases i <;> rfl

theorem Instr.withFields_zero_mem (i : Instr) : i.withFields 0 0#64 ∈ zeroForms := by
  cases i <;> simp [Instr.withFields, zeroForms]

/-- The opcode map holds the rows of the commands and no other. -/
theorem mem_opcodeMap_iff {r : OpcodeRow} : r ∈ opcodeMap ↔ ∃ i : Instr, i.row = r := by
  rw [opcodeMap_eq_map_row, List.mem_map]
  constructor
  · rintro ⟨i, -, hi⟩
    exact ⟨i, hi⟩
  · rintro ⟨i, rfl⟩
    exact ⟨_, i.withFields_zero_mem, i.row_withFields _ _⟩

/-- A word less its low `k` bits is `op` above 24 zeros exactly when `op` is the opcode byte and every operand bit from `k`
up is zero. -/
theorem masked_eq_iff {w : Word} {op k : Nat} (hop : op < 256) (hk : k ≤ 24) :
    w &&& BitVec.allOnes 32 <<< k = BitVec.ofNat 32 (op * 2 ^ 24) ↔ opcodeByte w = op ∧ operandBits w < 2 ^ k := by
  have hpow : 2 ^ k ≤ 2 ^ 24 := Nat.pow_le_pow_right (by decide) hk
  have hlow : w.toNat % 2 ^ k < 2 ^ k := Nat.mod_lt _ (by positivity)
  have hle : w.toNat % 2 ^ k ≤ w.toNat := Nat.mod_le _ _
  have hmask : (w &&& BitVec.allOnes 32 <<< k).toNat = w.toNat - w.toNat % 2 ^ k := by
    rw [← BitVec.shiftLeft_ushiftRight, BitVec.toNat_shiftLeft, BitVec.toNat_ushiftRight, Nat.shiftLeft_eq,
      Nat.shiftRight_eq_div_pow, Nat.div_mul_self_eq_mod_sub_self, Nat.mod_eq_of_lt ((Nat.sub_le _ _).trans_lt w.isLt)]
  have hpat : op * 2 ^ 24 < 2 ^ 32 := by omega
  rw [← BitVec.toNat_inj, hmask, BitVec.toNat_ofNat, Nat.mod_eq_of_lt hpat, opcodeByte, operandBits]
  constructor
  · intro h
    generalize w.toNat % 2 ^ k = low at hlow hle h
    omega
  · rintro ⟨rfl, hr⟩
    have hmod : w.toNat % 2 ^ 24 % 2 ^ k = w.toNat % 2 ^ k := Nat.mod_mod_of_dvd _ (Nat.pow_dvd_pow 2 hk)
    rw [← hmod, Nat.mod_eq_of_lt hr, Nat.div_mul_self_eq_mod_sub_self]

theorem Instr.row_matches_iff {i : Instr} {w : Word} :
    w &&& i.row.mask = i.row.pattern ↔ opcodeByte w = i.opcode ∧ operandBits w < 2 ^ i.width :=
  masked_eq_iff i.opcode_lt i.width_le

/-- A word that matches a command's row decodes to that command. -/
theorem decode_of_row_matches {i : Instr} {w : Word} (h : w &&& i.row.mask = i.row.pattern) (d : F64) :
    decode w d = .ok (i.withFields (operandBits w) d) :=
  have ⟨hop, hlt⟩ := Instr.row_matches_iff.mp h
  decode_of_fields hop hlt d

/-- Settles O3: matching a row and decoding to its command are the same condition on the fields. -/
theorem decodeAgreesWithOpcodeMap : Obligations.DecodeAgreesWithOpcodeMap := by
  refine fun w d => ⟨fun i h => ?_, fun r hr hmatch => ?_⟩
  · exact ⟨i.row, mem_opcodeMap_iff.mpr ⟨i, rfl⟩, rfl, Instr.row_matches_iff.mpr (fields_of_decode h)⟩
  · obtain ⟨i, rfl⟩ := mem_opcodeMap_iff.mp hr
    exact ⟨_, decode_of_row_matches hmatch d, i.mnemonic_withFields _ _⟩

/-- Settles O4: a word decodes to one instruction, so the commands of two rows it matches differ in their operands only,
and those are not in the row. -/
theorem opcodeRowsNeverOverlap : Obligations.OpcodeRowsNeverOverlap := by
  intro w r hr r' hr' h h'
  obtain ⟨i, rfl⟩ := mem_opcodeMap_iff.mp hr
  obtain ⟨j, rfl⟩ := mem_opcodeMap_iff.mp hr'
  have hsame := Except.ok.inj ((decode_of_row_matches h 0#64).symm.trans (decode_of_row_matches h' 0#64))
  calc i.row = (i.withFields (operandBits w) 0#64).row := (i.row_withFields _ _).symm
    _ = (j.withFields (operandBits w) 0#64).row := congrArg Instr.row hsame
    _ = j.row := j.row_withFields _ _

/-! ### The data operand -/

theorem word_encode_wpush (x : F64) : (encode (.wpush x)).word = 0x11000000#32 :=
  congrArg (BitVec.ofNat 32) (show 0x11 * 2 ^ 24 + 0 = 0x11000000 by decide)

/-- Settles O5: with other data the command is the same but for the sample of WPUSH. -/
theorem onlyWpushReadsCmdData : Obligations.OnlyWpushReadsCmdData := by
  intro w d d'
  have hother := decode_with_data w d d'
  cases h : decode w d with
  | error e => exact .inl (by rw [hother, h]; rfl)
  | ok i =>
    rw [h] at hother
    cases i
    case wpush x =>
      cases data_of_decode h
      exact .inr ⟨(word_of_decode h).trans (word_encode_wpush _), rfl, hother⟩
    all_goals exact .inl hother.symm

/-! ### Example words -/

theorem decode_of_word_encode {w : Word} (i : Instr) (hi : i.wellFormed = true) (hw : (encode i).word = w) :
    decode w i.data = .ok i :=
  hw ▸ decodeEncodeRoundTrip i hi

/-- Settles O6: the eight command words are the encodings of their instructions, and the four illegal words are decoded by
evaluation. -/
theorem exampleWordsDecode : Obligations.ExampleWordsDecode := by
  refine ⟨decode_of_word_encode .nop rfl ?_, decode_of_word_encode (.wpush _) rfl ?_,
    decode_of_word_encode (.gzr 5) rfl ?_, decode_of_word_encode (.gzn 18) rfl ?_,
    decode_of_word_encode (.rdnf 0) rfl ?_, decode_of_word_encode (.rdft 13) rfl ?_,
    decode_of_word_encode (.ckadd 0x4D) rfl ?_, decode_of_word_encode (.ckcmp 0x013B) rfl ?_,
    rfl, rfl, rfl, rfl⟩ <;> decide

end Sys2Proof
end

section
/-! A command at the port as the command function of 30_encoding.md R50, and that function on real parameters. -/

namespace Sys2Proof.Machine

variable {ρ α : Type}

/-! ### The command function on an accepted word -/

section
variable [Add ρ] [Mul ρ] [NatCast ρ] (N : Numerics ρ F64) (p : Params ρ F64) (b : Block F64) {w : Word} {d : F64}

/-- The command function reads the sample where the decoder puts it (30_encoding.md R52). -/
theorem commandStep_of_decode_ok {i : Instr} (h : decode w d = .ok i) :
    commandStep N p w d b = blockStep N p i i.data b := by
  have hdata := data_of_decode h
  rw [commandStep, decode_with_data w d, h]
  cases i
  case wpush => cases hdata; rfl
  all_goals rfl

theorem commandStep_of_decode_error {e : DecodeError} (h : decode w d = .error e) :
    commandStep N p w d b = raise N .illegal b := by
  rw [commandStep, decode_with_data w d, h]
  rfl

end

/-! ### A response up to the bits of a NaN -/

/-- `r` is the response `d`, or holds another NaN where `d` holds one (93_implementation_defined.md U6; log entry 2). -/
def Response.UpToNan (r d : Response F64) : Prop :=
  r.stat = d.stat ∧ if f64IsNan d.data then f64IsNan r.data = true else r.data = d.data

theorem Response.UpToNan.refl (r : Response F64) : r.UpToNan r :=
  ⟨rfl, by split <;> trivial⟩

theorem Response.freed_upToNan (n : Nat) (r : Response F64) : (r.freed n).UpToNan r := by
  refine ⟨r.freed_stat n, ?_⟩
  unfold Response.freed
  split
  · exact freeNan_isNan n
  · rfl

theorem execResponse_upToNan (p : Params ℚ F64) (b : Block F64) (n : Nat) (i : Instr) :
    (execResponse p b n i).UpToNan (blockStep binary64 p i i.data b).2 := by
  unfold execResponse
  split
  · exact Response.freed_upToNan n _
  · exact .refl _

/-! ### A command at the port -/

/-- Every instruction has a next state, and takes nothing from the port. -/
theorem exec_total (i : Instr) (s : State) : ∃ t, exec i s = .next t ∧ t.inputs = s.inputs := by
  rcases exec_eq_blockStep i s with e | ⟨-, e⟩
  · exact ⟨_, e, State.finish_inputs _ _⟩
  · exact ⟨_, e, State.finishPower_inputs _ _⟩

/-- What a step does on a presented command: it takes the command, applies the command function, and answers once. -/
theorem step_command {s : State} {c : Command} {rest : List Input} (hin : s.inputs = .command c :: rest) :
    ∃ t r, step s = .next t ∧ t.out = r :: s.out ∧ t.inputs = rest ∧
      t.toBlock = (commandStep binary64 s.params c.word c.data s.toBlock).1 ∧
      r.UpToNan (commandStep binary64 s.params c.word c.data s.toBlock).2 := by
  have htail : s.takeInput.inputs = rest := by rw [State.takeInput_inputs, hin, List.tail_cons]
  cases hd : decode c.word c.data with
  | ok i =>
    obtain ⟨t, ht, hinputs⟩ := exec_total i s.takeInput
    rw [commandStep_of_decode_ok _ _ _ hd]
    exact ⟨t, _, (step_of_decode_ok hin hd).trans ht, exec_out (s := s.takeInput) ht, hinputs.trans htail,
      (exec_next ht).1, execResponse_upToNan _ _ _ _⟩
  | error e =>
    rw [commandStep_of_decode_error _ _ _ hd]
    exact ⟨_, _, step_of_decode_error hin hd, State.answerIllegal_out _, htail, rfl, .refl _⟩

/-- Settles O41: what `step_command` says, with the parameters by `step_params`. -/
theorem everyCommandIsAnswered : Obligations.EveryCommandIsAnswered := by
  intro s c rest hin
  obtain ⟨t, r, hstep, hout, hinputs, -, -⟩ := step_command hin
  exact ⟨t, r, hstep, hout, hinputs, step_params hstep⟩

/-- Settles O37: the state from which the command has been taken is the one with `rest` presented. -/
theorem stepRunsDecodedInstruction : Obligations.StepRunsDecodedInstruction := by
  intro s c rest i hin hd
  rw [step_of_decode_ok hin hd, State.takeInput, hin, List.tail_cons]

/-! ### Rational parameters as real ones

The parameters reach a command only through `N_SYM`, `COEF`, `FT` and `EPS` (log entry 4), and the two roundings of a
rational number give the same NUM. -/

/-- The same primitives for exact parameters of another type, given the NUM nearest each of them. -/
def Numerics.withNearest {ρ' : Type} (N : Numerics ρ α) (nearest : ρ' → α) : Numerics ρ' α :=
  { N with nearest := nearest }

theorem binary64Real_eq : binary64Real = binary64.withNearest f64Nearest := rfl

section
variable {N : Numerics ℚ α} {nearest : ℝ → α} (h : ∀ q : ℚ, nearest q = N.nearest q) (p : Params ℚ α) (b : Block α)
include h

theorem ft_toReal (i : Fin 19) : ft (N.withNearest nearest) p.toReal i = ft N p i := by
  rw [ft, ft, exactFreq_toReal]
  exact h _

theorem epsNum_toReal : epsNum (N.withNearest nearest) p.toReal = epsNum N p := h p.eps

theorem normPower_toReal : normPower (N.withNearest nearest) p.toReal b = normPower N p b := by
  funext i
  rw [normPower, normPower, divisor, divisor, epsNum_toReal h]
  rfl

theorem blockStep_toReal (i : Instr) (x : α) :
    blockStep (N.withNearest nearest) p.toReal i x b = blockStep N p i x b := by
  cases i
  case gzn idx =>
    rw [blockStep, blockStep, readNorm, readNorm, normPower_toReal h]
    rfl
  case cls =>
    rw [blockStep, blockStep, classifySymbol, classifySymbol, nibblePowers, nibblePowers, normPower_toReal h]
    rfl
  case rdft idx =>
    simp only [blockStep, readFreq, ft_toReal h]
    rfl
  all_goals rfl

theorem commandStep_toReal (w : Word) (x : α) :
    commandStep (N.withNearest nearest) p.toReal w x b = commandStep N p w x b := by
  rw [commandStep, commandStep]
  split
  · exact blockStep_toReal h p b _ x
  · rfl

end

/-- Settles O49: `step_command` for the step, and `commandStep_toReal` because `f64Nearest` and
`f64Lit` agree on rational numbers (O55). -/
theorem stepIsTheSpecsFunction : Obligations.StepIsTheSpecsFunction := by
  refine ⟨fun s c rest hin => ?_, fun p w x b => ?_⟩
  · obtain ⟨t, r, hstep, hout, -, hblock, hresp⟩ := step_command hin
    exact ⟨t, r, hstep, hout, hblock, hresp⟩
  · rw [binary64Real_eq]
    exact commandStep_toReal litIsNearest.2.2 p b w x

end Sys2Proof.Machine
end

section
/-! What a host reads in the response of a completed and of a faulting command, and a run of presented instructions as
their effects one after another (30_encoding.md R50, R56, R58). -/

namespace Sys2Proof.Machine

/-! ### Responses as a claim states them -/

theorem reports_respond (b : Block F64) (cond byteRdy : Bool) (ival : BitVec 16) (data : F64) :
    Reports (respond b cond byteRdy ival data).2 cond byteRdy ival data :=
  ⟨fault_statWord .., cond_statWord .., byteRdy_statWord .., reserved_statWord .., ival_statWord .., rfl⟩

theorem reportsFault_raise (c : Cause) (b : Block F64) : ReportsFault (raise binary64 c b).2 c.code :=
  ⟨raise_stat_eq binary64 c b, rfl⟩

/-! ### A run of instructions -/

/-- The architectural state after the instructions `is`, one after another. -/
def runBlock (p : Params ℚ F64) (is : List Instr) (b : Block F64) : Block F64 :=
  is.foldl (fun b i => (blockStep binary64 p i i.data b).1) b

section
variable (p : Params ℚ F64) (i : Instr) (is : List Instr) (b : Block F64)

@[simp] theorem runBlock_nil : runBlock p [] b = b := rfl

@[simp] theorem runBlock_cons :
    runBlock p (i :: is) b = runBlock p is (blockStep binary64 p i i.data b).1 := rfl

end

/-- A step on the command of a well-formed instruction takes it from the port, has the instruction's effect and answers
once. -/
theorem step_encode {s : State} {i : Instr} {rest : List Input} (hi : i.wellFormed = true)
    (hin : s.inputs = .command (encode i) :: rest) :
    ∃ t, step s = .next t ∧ t.inputs = rest ∧ t.params = s.params ∧
      t.toBlock = (blockStep binary64 s.params i i.data s.toBlock).1 ∧ t.out.length = s.out.length + 1 := by
  obtain ⟨t, r, hstep, hout, hinputs, hblock, -⟩ := step_command hin
  rw [commandStep_of_decode_ok _ _ _ (decodeEncodeRoundTrip i hi)] at hblock
  exact ⟨t, hstep, hinputs, step_params hstep, hblock, by rw [hout, List.length_cons]⟩

/-- A run takes its first step and goes on from the state that step leaves. -/
theorem run_succ_of_step {s t : State} (h : step s = .next t) (k : Nat) :
    Host.Core.run core (k + 1) s = Host.Core.run core k t := by
  have hcore : core.step s = .next t := h
  simp only [Host.Core.run, hcore]

/-- With well-formed instructions presented, one step for each gives their effects in order and one response each. -/
theorem run_presented {is : List Instr} (his : ∀ i ∈ is, i.wellFormed = true) {s : State}
    (hin : s.inputs = (is.map encode).map .command) :
    ∃ t : State, Host.Core.run core is.length s = .next t ∧ t.toBlock = runBlock s.params is s.toBlock ∧
      t.out.length = s.out.length + is.length := by
  induction is generalizing s with
  | nil => exact ⟨s, rfl, rfl, rfl⟩
  | cons i is ih =>
    obtain ⟨hi, his⟩ := List.forall_mem_cons.mp his
    obtain ⟨u, hstep, hinputs, hparams, hblock, hlen⟩ := step_encode hi hin
    obtain ⟨t, hrun, htblock, htlen⟩ := ih his hinputs
    refine ⟨t, (run_succ_of_step hstep _).trans hrun, ?_, ?_⟩
    · rw [htblock, hparams, hblock, runBlock_cons]
    · rw [htlen, hlen, List.length_cons]
      omega

/-- `run_presented` for the commands of `runAll`, whatever the port held before. -/
theorem runAll_encode {is : List Instr} (his : ∀ i ∈ is, i.wellFormed = true) (s : State) :
    ∃ t, runAll s (is.map encode) = .next t ∧ t.toBlock = runBlock s.params is s.toBlock ∧
      t.out.length = s.out.length + is.length := by
  rw [runAll, List.length_map]
  exact run_presented his (s := { s with inputs := (is.map encode).map .command }) rfl

end Sys2Proof.Machine
end

section
/-! The window: what a push makes of it, and the commands WCLR and WPUSH (40_window.md R70, R71). -/

namespace Sys2Proof.Machine

variable {ρ α : Type} {p : Params ρ α} {w : List α}

/-! ### The sliding window -/

theorem slide_of_lt (h : w.length < p.nSym) (x : α) : slide p w x = w ++ [x] :=
  if_neg (by rw [List.length_append, List.length_singleton]; omega)

theorem slide_of_le (h : p.nSym ≤ w.length) (x : α) : slide p w x = (w ++ [x]).tail :=
  (if_pos (by rw [List.length_append, List.length_singleton]; omega)).trans List.drop_one

/-! ### The two commands -/

theorem exec_wclr (s : State) : exec .wclr s = .next (s.finish (windowClear binary64 s.toBlock)) := rfl

theorem exec_wpush (x : F64) (s : State) :
    exec (.wpush x) s = .next (s.finish (windowPush binary64 s.params x s.toBlock)) := rfl

theorem windowPush_of_finite {N : Numerics ρ α} {x : α} (hx : N.finite x = true) (b : Block α) :
    windowPush N p x b = respond { b with win := slide p b.win x }
      (decide ((slide p b.win x).length = p.nSym)) false 0#16 N.zero := by
  rcases windowPush_cases N p x b with ⟨-, e⟩ | ⟨hx', -⟩
  · exact e
  · rw [hx] at hx'; cases hx'

theorem windowPush_of_not_finite {N : Numerics ρ α} {x : α} (hx : N.finite x = false) (b : Block α) :
    windowPush N p x b = raise N .nonFin b := by
  rcases windowPush_cases N p x b with ⟨hx', -⟩ | ⟨-, e⟩
  · rw [hx] at hx'; cases hx'
  · exact e

/-- Settles O11: the word's fields are those of WCLR, and the command is one write to `WIN`. -/
theorem wclrEmptiesWindow : Obligations.WclrEmptiesWindow := by
  refine ⟨decode_of_fields (i := .wclr) (by decide) (by decide), fun s => ⟨_, exec_wclr s, ?_⟩⟩
  exact reports_respond ..

/-- Settles O12: the word's fields are those of WPUSH; a finite sample slides the window, any other raises `E_NONFIN`. -/
theorem wpushAppendsAndSlides : Obligations.WpushAppendsAndSlides := by
  refine ⟨decode_of_fields (i := .wpush 0#64) (by decide) (by decide), fun s x => ⟨fun hx => ?_, fun hx => ?_⟩⟩
  · rw [exec_wpush, windowPush_of_finite hx]
    exact ⟨_, slide s.params s.win x, rfl, (slide_of_lt · x), (slide_of_le · x), reports_respond ..⟩
  · rw [exec_wpush, windowPush_of_not_finite hx]
    exact ⟨_, rfl, reportsFault_raise ..⟩

/-! ### Filling the window -/

/-- Pushes of finite samples that the window has room for append them in order and write nothing else. -/
theorem runBlock_wpush {p : Params ℚ F64} {xs : List F64} (hxs : ∀ x ∈ xs, f64Finite x = true) {b : Block F64}
    (hroom : b.win.length + xs.length ≤ p.nSym) :
    runBlock p (xs.map .wpush) b = { b with win := b.win ++ xs } := by
  induction xs generalizing b with
  | nil => rw [List.map_nil, runBlock_nil, List.append_nil]
  | cons x xs ih =>
    obtain ⟨hx, hxs⟩ := List.forall_mem_cons.mp hxs
    rw [List.length_cons] at hroom
    have hpush : (blockStep binary64 p (.wpush x) x b).1 = { b with win := b.win ++ [x] } := by
      rw [blockStep, windowPush_of_finite hx, respond_fst, slide_of_lt (by omega)]
    have hroom' : (b.win ++ [x]).length + xs.length ≤ p.nSym := by
      rw [List.length_append, List.length_singleton]
      omega
    rw [List.map_cons, runBlock_cons, Instr.data, hpush, ih hxs hroom', List.append_cons b.win x xs]

theorem wellFormed_of_mem_expand_wload {xs : List F64} : ∀ i ∈ (Pseudo.wload xs).expand, i.wellFormed = true := by
  simp [Pseudo.expand, Instr.wellFormed]

/-- WLOAD of at most `N_SYM` finite samples leaves them as the window, whatever it held before. -/
theorem runBlock_wload {p : Params ℚ F64} {xs : List F64} (hxs : ∀ x ∈ xs, f64Finite x = true)
    (hlen : xs.length ≤ p.nSym) (b : Block F64) :
    runBlock p (Pseudo.wload xs).expand b = { b with win := xs } := by
  have hclear : (blockStep binary64 p .wclr Instr.wclr.data b).1 = { b with win := [] } := rfl
  rw [Pseudo.expand, runBlock_cons, hclear, runBlock_wpush hxs (by simpa using hlen), List.nil_append]

/-- Settles O13: WCLR makes room for all `N_SYM` samples, so no push slides. -/
theorem wloadFillsWindowInOrder : Obligations.WloadFillsWindowInOrder := by
  intro s xs hlen hxs
  obtain ⟨t, hrun, hblock, hout⟩ := runAll_encode (is := (Pseudo.wload xs).expand) wellFormed_of_mem_expand_wload s
  refine ⟨t, hrun, hblock.trans (runBlock_wload hxs hlen.le _), ?_⟩
  rw [hout, Pseudo.expand, List.length_cons, List.length_map, Nat.add_assoc]

end Sys2Proof.Machine
end

section
/-! The word of a command presented with any data, and the words of GZR and GZN (30_encoding.md R52, R53). -/

namespace Sys2Proof

/-- The word of a well-formed instruction decodes to it, with the data presented if it carries any. -/
theorem decode_word_encode {i : Instr} (hi : i.wellFormed = true) (d : F64) :
    decode (encode i).word d = .ok (i.withFields i.operand d) := by
  have hdecode : decode (encode i).word i.data = .ok i := decodeEncodeRoundTrip i hi
  rw [decode_with_data _ i.data, hdecode]
  rfl

theorem word_encode_gzr (idx : Nat) : (encode (.gzr idx)).word = BitVec.ofNat 32 (0x20000000 + idx) :=
  congrArg (fun n => BitVec.ofNat 32 (n + idx)) (show 0x20 * 2 ^ 24 = 0x20000000 by norm_num)

theorem word_encode_gzn (idx : Nat) : (encode (.gzn idx)).word = BitVec.ofNat 32 (0x21000000 + idx) :=
  congrArg (fun n => BitVec.ofNat 32 (n + idx)) (show 0x21 * 2 ^ 24 = 0x21000000 by norm_num)

end Sys2Proof
end

section
/-! The detector over any number type: the recurrence of 41_detector.md R76, and how GZR and GZN end
(R79, R80). -/

namespace Sys2Proof.Machine

variable {ρ α : Type}

/-! ### The recurrence -/

/-- Sequences that follow the recurrence hold, at `n`, the values after `n` samples. -/
theorem foldl_goertzelStep_take {N : Numerics ρ α} {c : α} {w : List α} {s s' : Nat → α}
    (hs : ∀ n (h : n < w.length), s (n + 1) = N.fsub (N.fadd w[n] (N.fmul c (s n))) (s' n))
    (hs' : ∀ n, n < w.length → s' (n + 1) = s n) {n : Nat} (hn : n ≤ w.length) :
    (w.take n).foldl (goertzelStep N c) (s 0, s' 0) = (s n, s' n) := by
  induction n with
  | zero => rfl
  | succ n ih =>
    have hlt : n < w.length := hn
    rw [List.take_succ_eq_append_getElem hlt, List.foldl_append, ih hlt.le, List.foldl_cons, List.foldl_nil,
      goertzelStep, hs n hlt, hs' n hlt]

/-- Settles O14: after the whole window the pair of the fold is the last pair of the two sequences. -/
theorem rawPowerFollowsRecurrence : Obligations.RawPowerFollowsRecurrence := by
  intro ρ α N p w i s s' h0 h0' hs hs'
  have hlast := foldl_goertzelStep_take (c := coef p i) hs hs' le_rfl
  rw [List.take_length, h0, h0'] at hlast
  rw [rawPower, hlast]
  rfl

/-! ### The commands that answer a power -/

theorem exec_gzr (idx : Nat) (s : State) :
    exec (.gzr idx) s =
      .next (s.finishPower (readPower binary64 s.params (rawPower binary64 s.params s.win) idx s.toBlock)) := rfl

theorem exec_gzn (idx : Nat) (s : State) :
    exec (.gzn idx) s =
      .next (s.finishPower (readPower binary64 s.params (normPower binary64 s.params s.toBlock) idx s.toBlock)) := rfl

section
variable (s : State)

theorem State.finishPower_of_number {d : Done F64} (h : f64IsNan d.2.data = false) :
    s.finishPower d = s.finish d := by
  rcases State.finishPower_cases s d with ⟨-, e⟩ | ⟨h', -⟩
  · exact e
  · rw [h] at h'; cases h'

/-- A fault is answered as such: `+0` is no NaN. -/
theorem State.finishPower_raise (c : Cause) :
    s.finishPower (raise binary64 c s.toBlock) = s.finish (raise binary64 c s.toBlock) :=
  s.finishPower_of_number (show f64IsNan 0#64 = false by decide +kernel)

/-- A completing power command writes no architectural state and answers the power, or any NaN where it is one. -/
theorem State.finishPower_respond (x : F64) :
    ∃ r k, s.finishPower (respond s.toBlock false false 0#16 x) = { s with out := r :: s.out, nanCount := k } ∧
      ReportsPower r x := by
  obtain ⟨hfault, hcond, hrdy, hres, hival, -⟩ := reports_respond s.toBlock false false 0#16 x
  rcases State.finishPower_cases s (respond s.toBlock false false 0#16 x) with ⟨hx, e⟩ | ⟨hx, e⟩ <;>
    rw [respond_data] at hx
  · exact ⟨_, s.nanCount, e, hfault, hcond, hrdy, hres, hival, by simp [hx]⟩
  · exact ⟨_, s.nanCount + 1, e, hfault, hcond, hrdy, hres, hival, by simp [hx, freeNan_isNan]⟩

variable (power : Fin 19 → F64) {idx : Nat}

theorem finishPower_readPower_of_index (h : 18 < idx) :
    ∃ r, s.finishPower (readPower binary64 s.params power idx s.toBlock) =
        { s with esr := s.esr ||| 0x04#8, out := r :: s.out } ∧ ReportsFault r 2 := by
  rcases readPower_cases binary64 s.params power idx s.toBlock with ⟨-, e⟩ | ⟨hidx, -⟩ | ⟨hidx, -⟩
  · rw [e, State.finishPower_raise]
    exact ⟨_, rfl, reportsFault_raise .index _⟩
  all_goals omega

theorem finishPower_readPower_of_notFull (h : idx ≤ 18) (hw : s.win.length ≠ s.params.nSym) :
    ∃ r, s.finishPower (readPower binary64 s.params power idx s.toBlock) =
        { s with esr := s.esr ||| 0x08#8, out := r :: s.out } ∧ ReportsFault r 3 := by
  rcases readPower_cases binary64 s.params power idx s.toBlock with ⟨hidx, -⟩ | ⟨-, -, e⟩ | ⟨-, hw', -⟩
  · omega
  · rw [e, State.finishPower_raise]
    exact ⟨_, rfl, reportsFault_raise .notFull _⟩
  · exact absurd hw' hw

theorem finishPower_readPower_of_full (h : idx < 19) (hw : s.win.length = s.params.nSym) :
    ∃ r k, s.finishPower (readPower binary64 s.params power idx s.toBlock) =
        { s with out := r :: s.out, nanCount := k } ∧ ReportsPower r (power ⟨idx, h⟩) := by
  rcases readPower_cases binary64 s.params power idx s.toBlock with ⟨hidx, -⟩ | ⟨-, hw', -⟩ | ⟨_, -, e⟩
  · omega
  · exact absurd hw hw'
  · rw [e]
    exact s.finishPower_respond _

end

theorem decode_gzr (d : F64) {idx : Nat} (h : idx ≤ 31) :
    decode (BitVec.ofNat 32 (0x20000000 + idx)) d = .ok (.gzr idx) :=
  word_encode_gzr idx ▸ decode_word_encode (i := .gzr idx) (decide_eq_true h) d

theorem decode_gzn (d : F64) {idx : Nat} (h : idx ≤ 31) :
    decode (BitVec.ofNat 32 (0x21000000 + idx)) d = .ok (.gzn idx) :=
  word_encode_gzn idx ▸ decode_word_encode (i := .gzn idx) (decide_eq_true h) d

/-- Settles O15: GZR is the reading of the raw power. -/
theorem gzrReturnsRawPower : Obligations.GzrReturnsRawPower := by
  refine ⟨fun d _ => decode_gzr d, fun s idx => ?_⟩
  simp only [exec_gzr, Host.Outcome.next.injEq]
  exact ⟨finishPower_readPower_of_index s _, finishPower_readPower_of_notFull s _,
    finishPower_readPower_of_full s _⟩

/-! ### The normalised power -/

section
variable (N : Numerics ρ α) (p : Params ρ α) {b : Block α} (i : Fin 19)

theorem normPower_of_disabled (h : b.nfen = false) : normPower N p b i = rawPower N p b.win i :=
  if_neg (by simp [h])

theorem normPower_of_enabled (h : b.nfen = true) :
    normPower N p b i =
      N.fdiv (rawPower N p b.win i) (N.fadd (N.fmul b.nf[i] (knf N)) (N.nearest p.eps)) :=
  if_pos h

end

/-- Settles O16: GZN is the reading of the normalised power, with `KNF` by its pattern (O56). -/
theorem gznReturnsNormalisedPower : Obligations.GznReturnsNormalisedPower := by
  obtain ⟨hknf, -⟩ := constantPatterns
  refine ⟨fun d _ => decode_gzn d, fun s idx => ?_⟩
  simp only [exec_gzn, Host.Outcome.next.injEq]
  refine ⟨finishPower_readPower_of_index s _, finishPower_readPower_of_notFull s _, fun h hw hoff => ?_,
    fun h hw hon => ?_⟩
  · rw [← normPower_of_disabled binary64 s.params _ hoff]
    exact finishPower_readPower_of_full s _ h hw
  · have hpower := normPower_of_enabled binary64 s.params ⟨idx, h⟩ hon
    rw [hknf] at hpower
    obtain ⟨r, k, hexec, hr⟩ := finishPower_readPower_of_full s (normPower binary64 s.params s.toBlock) h hw
    rw [hpower] at hr
    exact ⟨r, k, hexec, hr⟩

end Sys2Proof.Machine
end

section
/-! The sign of the binary64 raw power (41_detector.md R81). -/

namespace Sys2Proof.Machine

theorem f64Neg_nan : f64Neg f64Nan = false := by decide +kernel

theorem f64Mag_nan_ne_zero : f64Mag f64Nan ≠ 0 := by decide +kernel

theorem f64Neg_ofSum {v : Int} (h : 0 ≤ v) : f64Neg (f64OfSum v false) = false := by
  unfold f64OfSum
  split
  · exact f64Neg_pack false (by norm_num)
  · rw [f64Neg_pack _ (f64RoundMag_lt _ _), decide_eq_false_iff_not]
    omega

/-- A square is not negative, nor is the NaN that stands for one. -/
theorem f64Neg_mul_self (a : F64) : f64Neg (f64Mul a a) = false := by
  unfold f64Mul
  simp only [bne_self_eq_false]
  split_ifs
  · exact f64Neg_nan
  · exact f64Neg_nan
  · exact f64Neg_pack false f64InfMag_lt
  · exact f64Neg_pack false (f64RoundMag_lt _ _)

theorem f64Units_nonneg {a : F64} (h : f64Neg a = false) : 0 ≤ f64Units a := by
  simp [f64Units, h]

theorem f64Neg_add {a b : F64} (ha : f64Neg a = false) (hb : f64Neg b = false) : f64Neg (f64Add a b) = false := by
  unfold f64Add
  rw [ha, hb]
  split_ifs
  · exact f64Neg_nan
  · exact f64Neg_nan
  · exact ha
  · exact hb
  · exact f64Neg_ofSum (add_nonneg (f64Units_nonneg ha) (f64Units_nonneg hb))

/-- A rounded sum that is a zero has the sign given to an exact zero: no other sum rounds to zero. -/
theorem f64Neg_ofSum_of_zero {v : Int} {z : Bool} (h : f64Mag (f64OfSum v z) = 0) : f64Neg (f64OfSum v z) = z := by
  unfold f64OfSum at h ⊢
  split at h
  · next hv => rw [if_pos hv, f64Neg_pack z (by norm_num)]
  · next hv =>
    rw [f64Mag_pack _ (f64RoundMag_lt _ _)] at h
    exact absurd h (f64RoundMag_ne_zero (Int.natAbs_ne_zero.mpr hv))

/-- A sum that is a zero is `-0` only where both addends are negative. -/
theorem f64Neg_add_of_zero {a b : F64} (h : f64Mag (f64Add a b) = 0) :
    f64Neg (f64Add a b) = (f64Neg a && f64Neg b) := by
  unfold f64Add at h ⊢
  split_ifs at h ⊢ with hnan hinf hopp hinf'
  · exact absurd h f64Mag_nan_ne_zero
  · exact absurd h f64Mag_nan_ne_zero
  · exact absurd h (f64IsInf_mag_ne_zero hinf)
  · exact absurd h (f64IsInf_mag_ne_zero hinf')
  · exact f64Neg_ofSum_of_zero h

/-- A minuend that is not negative leaves no `-0`. -/
theorem f64Sub_ne_negZero {a b : F64} (ha : f64Neg a = false) : f64Sub a b ≠ 0x8000000000000000#64 := by
  intro h
  have hmag : f64Mag (f64Sub a b) = 0 := by rw [h]; decide +kernel
  have hneg : f64Neg (f64Sub a b) = true := by rw [h]; decide +kernel
  rw [f64Sub, f64Neg_add_of_zero hmag, ha] at hneg
  cases hneg

/-- Settles O17: the closing formula subtracts from a sum of two squares. -/
theorem rawPowerIsNeverNegativeZero : Obligations.RawPowerIsNeverNegativeZero :=
  fun _ _ _ => f64Sub_ne_negZero (f64Neg_add (f64Neg_mul_self _) (f64Neg_mul_self _))

end Sys2Proof.Machine
end

section
/-! The raw power under `REAL` as the power of the discrete-time Fourier transform, and what follows for a window of
zeros, a single sample and a scaled window (41_detector.md R77). -/

namespace Sys2Proof.Machine

/-! ### The transform -/

/-- The discrete-time Fourier transform of a window at angular frequency `w`. -/
noncomputable def dft (win : List ℝ) (w : ℝ) : ℂ :=
  (win.zipIdx.map (fun xn => (xn.1 : ℂ) * Complex.exp (-Complex.I * (w : ℂ) * (xn.2 : ℂ)))).sum

/-- The turn of one sample period at angular frequency `w`. -/
noncomputable def turn (w : ℝ) : ℂ := Complex.exp (-Complex.I * w)

theorem dftPower_eq (win : List ℝ) (w : ℝ) : dftPower win w = Complex.normSq (dft win w) := rfl

section
variable (w : ℝ)

@[simp] theorem dft_nil : dft [] w = 0 := rfl

/-- The samples after the first are one turn later. -/
theorem dft_cons (x : ℝ) (xs : List ℝ) : dft (x :: xs) w = x + turn w * dft xs w := by
  have hturn : ∀ n : Nat, Complex.exp (-Complex.I * w * (n + 1 : Nat)) =
      turn w * Complex.exp (-Complex.I * w * n) := fun n => by
    rw [turn, ← Complex.exp_add]
    push_cast
    ring_nf
  rw [dft, dft, List.zipIdx_cons, List.zipIdx_succ, List.map_cons, List.sum_cons, List.map_map,
    ← List.sum_map_mul_left]
  congr 1
  · simp
  · congr 1
    refine List.map_congr_left fun xn _ => ?_
    simp only [Function.comp_apply, hturn]
    ring

theorem turn_eq : turn w = Real.cos w - Real.sin w * Complex.I := by
  rw [turn, show -Complex.I * (w : ℂ) = ((-w : ℝ) : ℂ) * Complex.I by push_cast; ring, Complex.exp_mul_I]
  simp [sub_eq_add_neg]

theorem turn_re : (turn w).re = Real.cos w := by simp [turn_eq, Complex.cos_ofReal_re]

theorem turn_im : (turn w).im = -Real.sin w := by simp [turn_eq, Complex.sin_ofReal_re]

@[simp] theorem normSq_turn : Complex.normSq (turn w) = 1 := by
  rw [Complex.normSq_apply, turn_re, turn_im]
  linear_combination Real.sin_sq_add_cos_sq w

/-- The turn and its inverse add up to the Goertzel coefficient. -/
theorem turn_mul_coef : turn w * (2 * Real.cos w : ℝ) = turn w ^ 2 + 1 := by
  have h := Real.sin_sq_add_cos_sq w
  apply Complex.ext
  · simp only [pow_two, Complex.mul_re, Complex.add_re, Complex.ofReal_re, Complex.ofReal_im, Complex.one_re,
      turn_re, turn_im]
    linear_combination h
  · simp only [pow_two, Complex.mul_im, Complex.add_im, Complex.ofReal_re, Complex.ofReal_im, Complex.one_im,
      turn_re, turn_im]
    ring

end

/-! ### The recurrence as the transform -/

/-- The complex number that the pair `(s1, s2)` of the recurrence stands for. -/
noncomputable def phasor (w : ℝ) (s : ℝ × ℝ) : ℂ := s.1 - turn w * s.2

/-- The closing formula is the squared magnitude of the phasor. -/
theorem goertzelClose_eq_normSq (w : ℝ) (s : ℝ × ℝ) :
    goertzelClose reals (2 * Real.cos w) s = Complex.normSq (phasor w s) := by
  have h := Real.sin_sq_add_cos_sq w
  simp only [goertzelClose, phasor, reals_fsub, reals_fadd, reals_fmul, Complex.normSq_apply, Complex.sub_re,
    Complex.sub_im, Complex.mul_re, Complex.mul_im, Complex.ofReal_re, Complex.ofReal_im, turn_re, turn_im]
  linear_combination -(s.2 ^ 2) * h

/-- One turn of the recurrence: the phasor turns back by one sample period and gains the sample. -/
theorem turn_mul_phasor_step (w x : ℝ) (s : ℝ × ℝ) :
    turn w * phasor w (goertzelStep reals (2 * Real.cos w) s x) = turn w * x + phasor w s := by
  have h := turn_mul_coef w
  simp only [goertzelStep, phasor, reals_fsub, reals_fadd, reals_fmul]
  push_cast at h ⊢
  linear_combination s.1 * h

/-- Turned once for each sample, the phasor after a window is the phasor before it and the transform, one turn on. -/
theorem turn_pow_mul_phasor (w : ℝ) (xs : List ℝ) (s : ℝ × ℝ) :
    turn w ^ xs.length * phasor w (xs.foldl (goertzelStep reals (2 * Real.cos w)) s) =
      phasor w s + turn w * dft xs w := by
  induction xs generalizing s with
  | nil => simp
  | cons x xs ih =>
    have hstep := turn_mul_phasor_step w x s
    rw [List.length_cons, List.foldl_cons, dft_cons, pow_succ', mul_assoc, ih, mul_add, hstep]
    ring

/-- With the exact coefficient, the raw power is the squared magnitude of the transform: turns keep magnitudes. -/
theorem rawPower_eq_dftPower {p : Params ℝ ℝ} (hp : CoefExact p) (win : List ℝ) (i : Fin 19) :
    rawPower reals p win i = dftPower win (omega p i) := by
  have hfold := congrArg Complex.normSq (turn_pow_mul_phasor (omega p i) win (0, 0))
  have hstart : phasor (omega p i) (0, 0) = 0 := by simp [phasor]
  rw [hstart, zero_add, map_mul, map_pow, map_mul, normSq_turn, one_pow, one_mul, one_mul] at hfold
  rw [rawPower, hp i, goertzelClose_eq_normSq, dftPower_eq]
  exact hfold

/-- Settles O57: a squared magnitude is not negative. -/
theorem realRawPowerIsDftPower : Obligations.RealRawPowerIsDftPower := by
  intro p win i hp
  rw [rawPower_eq_dftPower hp]
  exact ⟨rfl, Complex.normSq_nonneg _⟩

/-! ### Silence, one sample, scaling -/

section
variable (w : ℝ)

@[simp] theorem dft_zeros (n : Nat) : dft (List.replicate n 0) w = 0 := by
  induction n with
  | zero => rfl
  | succ n ih => simp [List.replicate_succ, dft_cons, ih]

/-- A window that begins `m` samples late is turned `m` times. -/
theorem dft_delay (m : Nat) (xs : List ℝ) : dft (List.replicate m 0 ++ xs) w = turn w ^ m * dft xs w := by
  induction m with
  | zero => simp
  | succ m ih =>
    rw [List.replicate_succ, List.cons_append, dft_cons, ih, Complex.ofReal_zero, zero_add, pow_succ', mul_assoc]

theorem dft_scale (k : ℝ) (xs : List ℝ) : dft (xs.map (fun x => k * x)) w = k * dft xs w := by
  induction xs with
  | nil => simp
  | cons x xs ih =>
    rw [List.map_cons, dft_cons, dft_cons, ih]
    push_cast
    ring

end

/-- Settles O58: by O57 each power is that of the transform, which is 0, a turned sample, or scaled. -/
theorem realPowerConsequences : Obligations.RealPowerConsequences := by
  intro p i hp
  simp only [rawPower_eq_dftPower hp, dftPower_eq]
  refine ⟨fun n => ?_, fun m n a => ?_, fun win k => ?_⟩
  · rw [dft_zeros, map_zero]
  · rw [dft_delay, dft_cons, dft_zeros, mul_zero, add_zero, map_mul, map_pow, normSq_turn, one_pow, one_mul,
      Complex.normSq_ofReal]
  · rw [dft_scale, map_mul, Complex.normSq_ofReal]

end Sys2Proof.Machine
end

section
/-! The calibration commands CALCLR, CALACC, CALFIN, NFDIS and RDNF (42_calibration.md R86 to R90). -/

namespace Sys2Proof

theorem word_encode_rdnf (idx : Nat) : (encode (.rdnf idx)).word = BitVec.ofNat 32 (0x34000000 + idx) :=
  congrArg (fun n => BitVec.ofNat 32 (n + idx)) (show 0x34 * 2 ^ 24 = 0x34000000 by norm_num)

theorem decode_rdnf (d : F64) {idx : Nat} (h : idx ≤ 31) :
    decode (BitVec.ofNat 32 (0x34000000 + idx)) d = .ok (.rdnf idx) :=
  word_encode_rdnf idx ▸ decode_word_encode (i := .rdnf idx) (decide_eq_true h) d

end Sys2Proof

namespace Sys2Proof.Machine

/-! ### The commands by their branches -/

section
variable {ρ α : Type} {N : Numerics ρ α} {p : Params ρ α} {b : Block α}

theorem calClear_eq (N : Numerics ρ α) (b : Block α) :
    calClear N b = respond { b with ca := Vector.replicate 19 N.zero, calcnt := 0#16 } false false 0#16 N.zero := by
  rw [calClear, tabulate_const]

theorem calAccumulate_of_notFull (hw : b.win.length ≠ p.nSym) : calAccumulate N p b = raise N .notFull b := by
  simpa [hw] using calAccumulate_cases N p b

theorem calAccumulate_of_calFull (hw : b.win.length = p.nSym) (hc : b.calcnt = 65535#16) :
    calAccumulate N p b = raise N .calFull b := by
  simpa [hw, hc] using calAccumulate_cases N p b

theorem calAccumulate_of_not_finite (hw : b.win.length = p.nSym) (hc : b.calcnt ≠ 65535#16)
    (hg : ∃ i : Fin 19, N.finite (rawPower N p b.win i) = false) : calAccumulate N p b = raise N .nonFin b := by
  rcases calAccumulate_cases N p b with ⟨hw', -⟩ | ⟨-, hc', -⟩ | ⟨-, -, -, e⟩ | ⟨-, -, hall, -⟩
  · exact absurd hw hw'
  · exact absurd hc' hc
  · exact e
  · obtain ⟨i, hi⟩ := hg
    rw [(windowPowers_all N p b.win).mp hall i] at hi
    cases hi

theorem calAccumulate_of_finite (hw : b.win.length = p.nSym) (hc : b.calcnt ≠ 65535#16)
    (hg : ∀ i : Fin 19, N.finite (rawPower N p b.win i) = true) :
    calAccumulate N p b =
      respond { b with ca := tabulate (fun i => N.fadd b.ca[i] (rawPower N p b.win i)), calcnt := b.calcnt + 1#16,
                       win := [] }
        false false (b.calcnt + 1#16) N.zero := by
  rcases calAccumulate_cases N p b with ⟨hw', -⟩ | ⟨-, hc', -⟩ | ⟨-, -, hall, -⟩ | ⟨-, -, -, e⟩
  · exact absurd hw hw'
  · exact absurd hc' hc
  · rw [(windowPowers_all N p b.win).mpr hg] at hall
    cases hall
  · simpa only [windowPowers, tabulate_get] using e

theorem calFinish_of_le (h : 4 ≤ b.calcnt.toNat) :
    calFinish N b =
      respond { b with nf := tabulate (fun i => N.fdiv b.ca[i] (N.toNum b.calcnt.toNat)), nfen := true }
        true false b.calcnt N.zero :=
  if_pos h

theorem calFinish_of_lt (h : b.calcnt.toNat < 4) :
    calFinish N b = respond { b with nfen := false } false false b.calcnt N.zero :=
  if_neg h.not_ge

theorem readNoise_of_ge {idx : Nat} (h : 19 ≤ idx) : readNoise N idx b = raise N .index b := by
  rw [readNoise, trackedIndex_of_ge h]

theorem readNoise_of_lt {idx : Nat} (h : idx < 19) :
    readNoise N idx b = respond b b.nfen false 0#16 b.nf[idx] := by
  rw [readNoise, trackedIndex_of_lt h]
  rfl

end

section
variable (s : State)

theorem exec_calclr : exec .calclr s = .next (s.finish (calClear binary64 s.toBlock)) := rfl

theorem exec_calacc : exec .calacc s = .next (s.finish (calAccumulate binary64 s.params s.toBlock)) := rfl

theorem exec_calfin : exec .calfin s = .next (s.finish (calFinish binary64 s.toBlock)) := rfl

theorem exec_nfdis : exec .nfdis s = .next (s.finish (noiseDisable binary64 s.toBlock)) := rfl

theorem exec_rdnf (idx : Nat) : exec (.rdnf idx) s = .next (s.finish (readNoise binary64 idx s.toBlock)) := rfl

end

/-! ### The commands of the calibration group -/

/-- Settles O18: the word's fields are those of CALCLR, and the command is one write to `CA` and `CALCNT`. -/
theorem calclrZeroesAccumulators : Obligations.CalclrZeroesAccumulators := by
  refine ⟨decode_of_fields (i := .calclr) (by decide) (by decide), fun s => ?_⟩
  rw [exec_calclr, calClear_eq]
  exact ⟨_, rfl, reports_respond ..⟩

/-- Settles O19: the word's fields are those of CALACC, and each clause is one branch of the command. -/
theorem calaccAccumulatesWindow : Obligations.CalaccAccumulatesWindow := by
  refine ⟨decode_of_fields (i := .calacc) (by decide) (by decide), fun s => ?_⟩
  rw [exec_calacc]
  refine ⟨fun hw hc hg => ?_, fun hw => ?_, fun hw hc => ?_, fun hw hc hg => ?_⟩
  · rw [calAccumulate_of_finite hw hc hg]
    exact ⟨_, _, rfl, fun i => tabulate_get _ i, reports_respond ..⟩
  · rw [calAccumulate_of_notFull hw]
    exact ⟨_, rfl, reportsFault_raise ..⟩
  · rw [calAccumulate_of_calFull hw hc]
    exact ⟨_, rfl, reportsFault_raise ..⟩
  · rw [calAccumulate_of_not_finite hw hc hg]
    exact ⟨_, rfl, reportsFault_raise ..⟩

/-- Settles O20: the word's fields are those of CALFIN, and the count decides the branch. -/
theorem calfinAveragesOrDisables : Obligations.CalfinAveragesOrDisables := by
  refine ⟨decode_of_fields (i := .calfin) (by decide) (by decide), fun s => ?_⟩
  rw [exec_calfin]
  refine ⟨fun hn => ?_, fun hn => ?_⟩
  · rw [calFinish_of_le hn]
    exact ⟨_, _, rfl, fun i => tabulate_get _ i, reports_respond ..⟩
  · rw [calFinish_of_lt hn]
    exact ⟨_, rfl, reports_respond ..⟩

/-- Settles O21: the word's fields are those of NFDIS, and the command is one write to `NFEN`. -/
theorem nfdisDisablesNormalisation : Obligations.NfdisDisablesNormalisation := by
  refine ⟨decode_of_fields (i := .nfdis) (by decide) (by decide), fun s => ?_⟩
  rw [exec_nfdis, noiseDisable]
  exact ⟨_, rfl, reports_respond ..⟩

/-- Settles O22: the index test decides between the fault and the reading of `NF`. -/
theorem rdnfReadsNoiseFloor : Obligations.RdnfReadsNoiseFloor := by
  refine ⟨fun d _ => decode_rdnf d, fun s idx => ?_⟩
  rw [exec_rdnf]
  refine ⟨fun h => ?_, fun h => ?_⟩
  · rw [readNoise_of_ge h]
    exact ⟨_, rfl, reportsFault_raise ..⟩
  · rw [readNoise_of_lt h]
    exact ⟨_, rfl, reports_respond ..⟩

end Sys2Proof.Machine
end

section
/-! The calibration procedure of 42_calibration.md R91: CALCLR, one CALWIN for each window, CALFIN. -/

namespace Sys2Proof.Machine

variable {p : Params ℚ F64}

theorem runBlock_append (p : Params ℚ F64) (is js : List Instr) (b : Block F64) :
    runBlock p (is ++ js) b = runBlock p js (runBlock p is b) :=
  List.foldl_append

/-- A window that CALACC accepts: full, of finite samples, and with nineteen finite raw powers. -/
def Calibrates (p : Params ℚ F64) (w : List F64) : Prop :=
  w.length = p.nSym ∧ (∀ x ∈ w, f64Finite x = true) ∧ ∀ i : Fin 19, f64Finite (rawPower binary64 p w i) = true

/-- The raw powers at tracked frequency `i` of the windows `ws`, added to `acc` in their order. -/
def sumPowers (p : Params ℚ F64) (ws : List (List F64)) (i : Fin 19) (acc : F64) : F64 :=
  ws.foldl (fun acc w => f64Add acc (rawPower binary64 p w i)) acc

theorem sumPowers_cons (w : List F64) (ws : List (List F64)) (i : Fin 19) (acc : F64) :
    sumPowers p (w :: ws) i acc = sumPowers p ws i (f64Add acc (rawPower binary64 p w i)) := rfl

theorem tabulate_getElem_self {α : Type} (v : Vector α 19) : tabulate (fun i => v[i.val]) = v :=
  Vector.ext fun n h => tabulate_getElem _ n h

/-- CALWIN of one window adds its powers, counts it and consumes it, whatever the window register held before. -/
theorem runBlock_calwin {w : List F64} (hw : Calibrates p w) {b : Block F64} (hc : b.calcnt ≠ 65535#16) :
    runBlock p (Pseudo.calwin w).expand b =
      { b with ca := tabulate (fun i => f64Add b.ca[i] (rawPower binary64 p w i)), calcnt := b.calcnt + 1#16,
               win := [] } := by
  obtain ⟨hlen, hfinite, hpowers⟩ := hw
  have hexpand : (Pseudo.calwin w).expand = (Pseudo.wload w).expand ++ [.calacc] := rfl
  have hacc := calAccumulate_of_finite (N := binary64) (b := { b with win := w }) hlen hc hpowers
  rw [hexpand, runBlock_append, runBlock_wload hfinite hlen.le]
  exact congrArg Prod.fst hacc

/-- As many windows as the counter has room for, one CALWIN after another. -/
theorem runBlock_calwins {ws : List (List F64)} (hws : ∀ w ∈ ws, Calibrates p w) {b : Block F64}
    (hroom : b.calcnt.toNat + ws.length ≤ 65535) :
    runBlock p (ws.flatMap fun w => (Pseudo.calwin w).expand) b =
      { b with ca := tabulate (fun i => sumPowers p ws i b.ca[i]), calcnt := b.calcnt + BitVec.ofNat 16 ws.length,
               win := if ws = [] then b.win else [] } := by
  induction ws generalizing b with
  | nil => simp [sumPowers, tabulate_getElem_self]
  | cons w ws ih =>
    obtain ⟨hw, hws⟩ := List.forall_mem_cons.mp hws
    rw [List.length_cons] at hroom
    have hc : b.calcnt ≠ 65535#16 := by bv_omega
    have hroom' : (b.calcnt + 1#16).toNat + ws.length ≤ 65535 := by bv_omega
    have hcount : b.calcnt + 1#16 + BitVec.ofNat 16 ws.length = b.calcnt + BitVec.ofNat 16 (ws.length + 1) := by
      bv_omega
    rw [List.flatMap_cons, runBlock_append, runBlock_calwin hw hc, ih hws hroom']
    simp only [tabulate_get, sumPowers_cons, hcount, List.length_cons, ite_self, reduceCtorEq, if_false]

/-- The instructions of the calibration procedure. -/
def calibration (ws : List (List F64)) : List Instr :=
  [.calclr] ++ ws.flatMap (fun w => (Pseudo.calwin w).expand) ++ [.calfin]

theorem map_encode_calibration (ws : List (List F64)) :
    (calibration ws).map encode =
      [encode .calclr] ++ ws.flatMap (fun w => (Pseudo.calwin w).expand.map encode) ++ [encode .calfin] := by
  simp only [calibration, List.map_append, List.map_flatMap, List.map_cons, List.map_nil]

theorem wellFormed_of_mem_calibration (ws : List (List F64)) : ∀ i ∈ calibration ws, i.wellFormed = true := by
  intro i hi
  simp only [calibration, Pseudo.expand, List.mem_append, List.mem_flatMap, List.mem_cons, List.mem_map,
    List.not_mem_nil, or_false] at hi
  obtain (rfl | ⟨w, -, (rfl | ⟨x, -, rfl⟩) | rfl⟩) | rfl := hi <;> rfl

/-- The procedure clears the accumulators, so they end as the sums, and CALFIN finds enough windows to average them. -/
theorem runBlock_calibration {ws : List (List F64)} (hws : ∀ w ∈ ws, Calibrates p w) (h4 : 4 ≤ ws.length)
    (hmax : ws.length ≤ 65535) (b : Block F64) :
    runBlock p (calibration ws) b =
      { b with ca := tabulate (fun i => sumPowers p ws i 0#64), calcnt := BitVec.ofNat 16 ws.length, win := [],
               nf := tabulate (fun i => f64Div (sumPowers p ws i 0#64) (f64OfNat ws.length)), nfen := true } := by
  have hne : ws ≠ [] := List.ne_nil_of_length_pos (by omega)
  have hcount : (BitVec.ofNat 16 ws.length).toNat = ws.length := by
    rw [BitVec.toNat_ofNat]
    omega
  have hclear (b : Block F64) : (blockStep binary64 p .calclr Instr.calclr.data b).1 =
      { b with ca := Vector.replicate 19 0#64, calcnt := 0#16 } :=
    congrArg Prod.fst (calClear_eq binary64 b)
  have hfin {b : Block F64} (hb : 4 ≤ b.calcnt.toNat) : (blockStep binary64 p .calfin Instr.calfin.data b).1 =
      { b with nf := tabulate (fun i => f64Div b.ca[i] (f64OfNat b.calcnt.toNat)), nfen := true } :=
    congrArg Prod.fst (calFinish_of_le (N := binary64) hb)
  rw [calibration, runBlock_append, runBlock_append, runBlock_cons, runBlock_nil, runBlock_cons, runBlock_nil, hclear,
    runBlock_calwins hws (by simpa using hmax), hfin (by simpa [hcount] using h4)]
  simp [hne, hcount]

/-- Settles O23: the run of the presented procedure is its effect on the block. -/
theorem calibrationAveragesRawPowers : Obligations.CalibrationAveragesRawPowers := by
  intro s ws hws h4 hmax
  obtain ⟨t, hrun, hblock, -⟩ := runAll_encode (wellFormed_of_mem_calibration ws) s
  rw [map_encode_calibration] at hrun
  rw [runBlock_calibration hws h4 hmax] at hblock
  refine ⟨t, hrun, ?_⟩
  rw [hblock]
  refine ⟨rfl, ?_, rfl, rfl, rfl, rfl, rfl, fun i => tabulate_get _ i⟩
  rw [BitVec.toNat_ofNat]
  omega

end Sys2Proof.Machine
end

section
/-! The decision function `CLASSIFY` over any number type whose comparisons follow real values: nibble `k` is accepted
exactly when its power exceeds the largest of the other fifteen and the three-way test of 43_classifier.md R97 holds of
the two. -/

namespace Sys2Proof.Machine

variable {ρ α : Type}

/-! ### The decision as one test -/

/-- The three-way test of 43_classifier.md R97 on the maximum and the largest of the other fifteen. -/
def accepts (N : Numerics ρ α) (best second : α) : Bool :=
  if N.fgt second N.zero then N.fge (N.fdiv best second) (kconf N)
  else N.feq second N.zero && N.fgt best N.zero

theorem toList_all_iff {n : Nat} {q : Vector α n} {f : α → Bool} :
    q.toList.all f = true ↔ ∀ j : Fin n, f q[j] = true := by
  rw [Vector.all_toList, Vector.all_eq_true, Fin.forall_iff]
  rfl

theorem classify_eq (N : Numerics ρ α) (q : Vector α 16) :
    classify N q = if q.toList.all N.finite && accepts N q[firstMax N q] (maxOthers N q (firstMax N q))
      then some (firstMax N q) else none := by
  unfold classify accepts
  cases q.toList.all N.finite
  · rfl
  · cases hgt : N.fgt (maxOthers N q (firstMax N q)) N.zero <;> simp [hgt]

theorem classify_eq_some_iff {N : Numerics ρ α} {q : Vector α 16} {k : Fin 16} :
    classify N q = some k ↔ (∀ j : Fin 16, N.finite q[j] = true) ∧ firstMax N q = k ∧
      accepts N q[k] (maxOthers N q k) = true := by
  rw [classify_eq, ← toList_all_iff]
  constructor
  · intro h
    split_ifs at h with hacc
    obtain rfl := Option.some.inj h
    rw [Bool.and_eq_true] at hacc
    exact ⟨hacc.1, rfl, hacc.2⟩
  · rintro ⟨hfin, rfl, hacc⟩
    rw [hfin, hacc]
    rfl

/-! ### Folding to a maximum -/

/-- Keeping the greater of two from the left ends with a member that no member exceeds. -/
theorem foldl_greater_spec {β : Type} {gt : β → β → Bool} {v : β → ℝ} {l : List β} {x : β}
    (h : ∀ a ∈ x :: l, ∀ b ∈ x :: l, (gt b a = true ↔ v a < v b)) :
    l.foldl (fun a b => if gt b a then b else a) x ∈ x :: l ∧
      ∀ y ∈ x :: l, v y ≤ v (l.foldl (fun a b => if gt b a then b else a) x) := by
  induction l generalizing x with
  | nil => simp
  | cons b l ih =>
    have hxb : gt b x = true ↔ v x < v b := h x (by simp) b (by simp)
    rw [List.foldl_cons]
    split_ifs with hgt
    · obtain ⟨hmem, hmax⟩ := ih (x := b) fun a ha c hc => h a (.tail _ ha) c (.tail _ hc)
      refine ⟨.tail _ hmem, fun y hy => ?_⟩
      rcases List.mem_cons.mp hy with rfl | hy
      · exact (hxb.mp hgt).le.trans (hmax b List.mem_cons_self)
      · exact hmax y hy
    · have hsub : ∀ a ∈ x :: l, a ∈ x :: b :: l := by simp +contextual
      obtain ⟨hmem, hmax⟩ := ih (x := x) fun a ha c hc => h a (hsub a ha) c (hsub c hc)
      refine ⟨hsub _ hmem, fun y hy => ?_⟩
      rcases List.mem_cons.mp hy with rfl | hy
      · exact hmax y List.mem_cons_self
      · rcases List.mem_cons.mp hy with rfl | hy
        · exact (not_lt.mp (mt hxb.mpr hgt)).trans (hmax x List.mem_cons_self)
        · exact hmax y (.tail _ hy)

/-! ### Number types with values -/

/-- The finite numbers have real values that decide the comparisons (00_scope.md R9), and the confidence test on two
positive numbers depends only on their exact quotient and fails on the quotient 1. -/
structure FollowsValues (N : Numerics ρ α) (v : α → ℝ) : Prop where
  finite_zero : N.finite N.zero = true
  value_zero : v N.zero = 0
  fgt_iff {a b : α} : N.finite a = true → N.finite b = true → (N.fgt a b = true ↔ v b < v a)
  feq_iff {a b : α} : N.finite a = true → N.finite b = true → (N.feq a b = true ↔ v a = v b)
  clear_congr {a b a' b' : α} : N.finite a = true → N.finite b = true → N.finite a' = true → N.finite b' = true →
    0 < v a → 0 < v b → 0 < v a' → 0 < v b' → v a / v b = v a' / v b' →
    N.fge (N.fdiv a b) (kconf N) = N.fge (N.fdiv a' b') (kconf N)
  not_clear_self {a : α} : N.finite a = true → 0 < v a → N.fge (N.fdiv a a) (kconf N) = false

/-- Index `m` holds the largest of the values at the indices other than `k`. -/
def IsSecond (v : α → ℝ) (q : Vector α 16) (k m : Fin 16) : Prop :=
  m ≠ k ∧ ∀ j : Fin 16, j ≠ k → v q[j] ≤ v q[m]

theorem IsSecond.value_eq {v : α → ℝ} {q : Vector α 16} {k m m' : Fin 16} (hm : IsSecond v q k m)
    (hm' : IsSecond v q k m') : v q[m] = v q[m'] :=
  le_antisymm (hm'.2 m hm.1) (hm.2 m' hm'.1)

section
variable {N : Numerics ρ α} {v : α → ℝ} (h : FollowsValues N v)
include h

theorem FollowsValues.fgt_zero_iff {a : α} (ha : N.finite a = true) : N.fgt a N.zero = true ↔ 0 < v a := by
  rw [h.fgt_iff ha h.finite_zero, h.value_zero]

theorem FollowsValues.feq_zero_iff {a : α} (ha : N.finite a = true) : N.feq a N.zero = true ↔ v a = 0 := by
  rw [h.feq_iff ha h.finite_zero, h.value_zero]

theorem FollowsValues.accepts_iff {a b : α} (ha : N.finite a = true) (hb : N.finite b = true) :
    accepts N a b = true ↔
      (0 < v b ∧ N.fge (N.fdiv a b) (kconf N) = true) ∨ (v b = 0 ∧ 0 < v a) := by
  unfold accepts
  split_ifs with hpos
  · rw [h.fgt_zero_iff hb] at hpos
    simp [hpos, hpos.ne']
  · rw [h.fgt_zero_iff hb] at hpos
    simp [hpos, h.feq_zero_iff hb, h.fgt_zero_iff ha]

/-- 43_classifier.md R98(1): the test fails on a maximum that occurs twice. -/
theorem FollowsValues.ne_of_accepts {a b : α} (ha : N.finite a = true) (hb : N.finite b = true)
    (hacc : accepts N a b = true) : v a ≠ v b := by
  intro e
  rcases (h.accepts_iff ha hb).mp hacc with ⟨hpos, hclear⟩ | ⟨hzero, hpos⟩
  · have hsame : v a / v b = v b / v b := by rw [e]
    rw [h.clear_congr ha hb hb hb (e ▸ hpos) hpos hpos hpos hsame, h.not_clear_self hb hpos] at hclear
    cases hclear
  · exact hpos.ne' (e.trans hzero)

/-- Where the maximum is above the second, the test depends on the two values only up to a common positive factor. -/
theorem FollowsValues.accepts_congr {a b a' b' : α} {c : ℝ} (hc : 0 < c) (ha : N.finite a = true)
    (hb : N.finite b = true) (ha' : N.finite a' = true) (hb' : N.finite b' = true) (hav : v a' = c * v a)
    (hbv : v b' = c * v b) (hlt : v b < v a) : accepts N a' b' = accepts N a b := by
  rw [Bool.eq_iff_iff, h.accepts_iff ha hb, h.accepts_iff ha' hb', hav, hbv, mul_pos_iff_of_pos_left hc,
    mul_pos_iff_of_pos_left hc, mul_eq_zero, or_iff_right hc.ne']
  refine or_congr_left (and_congr_right fun hpos => ?_)
  have hquot : v a' / v b' = v a / v b := by rw [hav, hbv, mul_div_mul_left _ _ hc.ne']
  have hapos := hpos.trans hlt
  rw [h.clear_congr ha' hb' ha hb (hav ▸ mul_pos hc hapos) (hbv ▸ mul_pos hc hpos) hapos hpos hquot]

variable {q : Vector α 16} (hfin : ∀ j : Fin 16, N.finite q[j] = true)
include hfin

theorem FollowsValues.value_le_firstMax (j : Fin 16) : v q[j] ≤ v q[firstMax N q] := by
  have hall : j ∈ (0 : Fin 16) :: (List.finRange 16).tail := List.mem_finRange j
  exact (foldl_greater_spec (gt := fun k bi => N.fgt q[k] q[bi]) (v := fun i => v q[i])
    fun a _ b _ => h.fgt_iff (hfin b) (hfin a)).2 j hall

theorem FollowsValues.exists_maxOthers_eq (k : Fin 16) : ∃ m, IsSecond v q k m ∧ maxOthers N q k = q[m] := by
  have hmem {y : α} : y ∈ q.toList.eraseIdx k.val ↔ ∃ j : Fin 16, j ≠ k ∧ q[j] = y := by
    rw [List.mem_eraseIdx_iff_getElem]
    constructor
    · rintro ⟨i, hi, hik, rfl⟩
      exact ⟨⟨i, by simpa using hi⟩, fun e => hik (congrArg Fin.val e), by simp⟩
    · rintro ⟨j, hjk, rfl⟩
      exact ⟨j.val, by simp, fun e => hjk (Fin.ext e), by simp⟩
  unfold maxOthers
  split
  · next hnil =>
    have := congrArg List.length hnil
    simp [List.length_eraseIdx] at this
  · next x xs hcons =>
    rw [hcons] at hmem
    have hfin' {y : α} (hy : y ∈ x :: xs) : N.finite y = true := by
      obtain ⟨j, -, rfl⟩ := hmem.mp hy
      exact hfin j
    obtain ⟨hmax, hle⟩ := foldl_greater_spec (gt := N.fgt) (v := v) (l := xs) (x := x)
      fun a ha b hb => h.fgt_iff (hfin' hb) (hfin' ha)
    obtain ⟨m, hmk, hm⟩ := hmem.mp hmax
    refine ⟨m, ⟨hmk, fun j hj => ?_⟩, hm.symm⟩
    rw [hm]
    exact hle _ (hmem.mpr ⟨j, hj, rfl⟩)

/-- The decision on finite powers, whichever index of the second maximum is looked at. -/
theorem FollowsValues.classify_eq_some_iff_of_isSecond {k m : Fin 16} (hm : IsSecond v q k m) :
    classify N q = some k ↔ v q[m] < v q[k] ∧ accepts N q[k] q[m] = true := by
  obtain ⟨m', hm', hmax⟩ := h.exists_maxOthers_eq hfin k
  have hsecond := hm.value_eq hm'
  have hacc (hlt : v q[m] < v q[k]) : accepts N q[k] q[m'] = accepts N q[k] q[m] :=
    h.accepts_congr one_pos (hfin k) (hfin m) (hfin k) (hfin m') (one_mul _).symm (by rw [hsecond, one_mul]) hlt
  rw [classify_eq_some_iff, and_iff_right hfin, hmax]
  constructor
  · rintro ⟨hfirst, haccepts⟩
    have hle : v q[m] ≤ v q[k] := hfirst ▸ h.value_le_firstMax hfin m
    have hlt := hle.lt_of_ne (hsecond ▸ (h.ne_of_accepts (hfin k) (hfin m') haccepts).symm)
    exact ⟨hlt, hacc hlt ▸ haccepts⟩
  · rintro ⟨hlt, haccepts⟩
    refine ⟨?_, (hacc hlt).trans haccepts⟩
    by_contra hne
    exact (hm.2 _ hne).not_gt (hlt.trans_le (h.value_le_firstMax hfin k))

/-- 43_classifier.md R98(3) for any exact positive factor. -/
theorem FollowsValues.classify_scaled {q' : Vector α 16} {c : ℝ} (hc : 0 < c)
    (hfin' : ∀ j : Fin 16, N.finite q'[j] = true) (hscale : ∀ j : Fin 16, v q'[j] = c * v q[j]) :
    classify N q' = classify N q := by
  refine Option.ext fun k => ?_
  obtain ⟨m, hm, -⟩ := h.exists_maxOthers_eq hfin k
  have hm' : IsSecond v q' k m :=
    ⟨hm.1, fun j hj => by rw [hscale, hscale]; exact mul_le_mul_of_nonneg_left (hm.2 j hj) hc.le⟩
  rw [h.classify_eq_some_iff_of_isSecond hfin' hm', h.classify_eq_some_iff_of_isSecond hfin hm, hscale, hscale,
    mul_lt_mul_iff_right₀ hc]
  refine and_congr_right fun hlt => ?_
  rw [h.accepts_congr hc (hfin k) (hfin m) (hfin' k) (hfin' m) (hscale k) (hscale m) hlt]

/-- Sixteen equal powers have no clear maximum; silence is the case of zeros (43_classifier.md R98(2)). -/
theorem FollowsValues.classify_of_forall_eq {c : ℝ} (heq : ∀ j : Fin 16, v q[j] = c) : classify N q = none := by
  refine Option.eq_none_iff_forall_ne_some.mpr fun k hk => ?_
  obtain ⟨m, hm, -⟩ := h.exists_maxOthers_eq hfin k
  obtain ⟨hlt, -⟩ := (h.classify_eq_some_iff_of_isSecond hfin hm).mp hk
  rw [heq, heq] at hlt
  exact hlt.false

end

end Sys2Proof.Machine
end

section
/-! `CLASSIFY` under `BINARY64` and under `REAL`: both number types follow the real values of their numbers
(43_classifier.md R97, R98). -/

namespace Sys2Proof.Machine

/-! ### Binary64 -/

theorem f64Extended_of_finite {x : F64} (h : f64Finite x = true) : f64Extended x = (f64Real x : EReal) := by
  rw [f64Extended, f64Finite_not_inf h, if_neg Bool.false_ne_true]

/-- On finite patterns the comparisons are those of the real values. -/
theorem f64Compare_of_finite {a b : F64} (ha : f64Finite a = true) (hb : f64Finite b = true) :
    (f64Gt a b = true ↔ f64Real b < f64Real a) ∧ (f64Ge a b = true ↔ f64Real b ≤ f64Real a) ∧
      (f64Eq a b = true ↔ f64Real a = f64Real b) := by
  have h := binary64ComparisonsFollowValues.1 a b (f64Finite_not_nan ha) (f64Finite_not_nan hb)
  rwa [f64Extended_of_finite ha, f64Extended_of_finite hb, EReal.coe_lt_coe_iff, EReal.coe_le_coe_iff,
    EReal.coe_eq_coe_iff] at h

/-- The rounding depends only on the exact fraction. -/
theorem f64RoundMag_congr {n d n' d' : Nat} (hd : 0 < d) (hd' : 0 < d') (h : (n / d : ℝ) = n' / d') :
    f64RoundMag n d = f64RoundMag n' d' := by
  have hnear := nearestMag_roundUnbounded n' hd'
  rw [← h] at hnear
  rw [f64RoundMag_eq, f64RoundMag_eq, (nearestMag_roundUnbounded n hd).unique hnear]

theorem f64Neg_of_pos {x : F64} (h : 0 < f64Real x) : f64Neg x = false := by
  have hunits : (0 : ℝ) ≤ f64MagUnits (f64Mag x) / unitsPerOne := div_nonneg (Nat.cast_nonneg _) unitsPerOne_pos.le
  by_contra hneg
  rw [f64Real_eq, Bool.eq_true_of_not_eq_false hneg, signedUnits, if_pos rfl, neg_div] at h
  linarith

theorem f64Real_of_pos {x : F64} (h : 0 < f64Real x) : f64Real x = f64MagUnits (f64Mag x) / unitsPerOne := by
  rw [f64Real_eq, f64Neg_of_pos h, signedUnits, if_neg Bool.false_ne_true]

/-- The exact quotient of two positive patterns in units, as `f64Div` forms it. -/
theorem f64Real_div_of_pos {a b : F64} (ha : 0 < f64Real a) (hb : 0 < f64Real b) :
    ((f64MagUnits (f64Mag a) * f64One : Nat) / f64MagUnits (f64Mag b) : ℝ) =
      f64Real a / f64Real b * unitsPerOne := by
  rw [f64Real_of_pos ha, f64Real_of_pos hb, div_div_div_cancel_right₀ unitsPerOne_pos.ne', Nat.cast_mul, unitsPerOne]
  ring

/-- Positive operands with the same exact quotient have the same rounded quotient. -/
theorem f64Div_congr {a b a' b' : F64} (ha : f64Finite a = true) (hb : f64Finite b = true) (ha' : f64Finite a' = true)
    (hb' : f64Finite b' = true) (hap : 0 < f64Real a) (hbp : 0 < f64Real b) (hap' : 0 < f64Real a')
    (hbp' : 0 < f64Real b') (h : f64Real a / f64Real b = f64Real a' / f64Real b') : f64Div a b = f64Div a' b' := by
  have hmag {x : F64} (hx : 0 < f64Real x) : f64Mag x ≠ 0 := mt f64Real_eq_zero.mpr hx.ne'
  have hunits {x : F64} (hx : 0 < f64Real x) : 0 < f64MagUnits (f64Mag x) :=
    Nat.pos_of_ne_zero (mt f64MagUnits_eq_zero.mp (hmag hx))
  have hfraction := (f64Real_div_of_pos hap hbp).trans (h ▸ (f64Real_div_of_pos hap' hbp').symm)
  rw [f64Div_of_finite ha hb (hmag hbp), f64Div_of_finite ha' hb' (hmag hbp'), f64Neg_of_pos hap, f64Neg_of_pos hbp,
    f64Neg_of_pos hap', f64Neg_of_pos hbp', f64RoundMag_congr (hunits hbp) (hunits hbp') hfraction]

theorem f64OfNat_one_value : f64Finite (f64OfNat 1) = true ∧ f64Real (f64OfNat 1) = 1 := by
  obtain ⟨hfin, hvalue⟩ := toNumIsExact 1 (by norm_num)
  exact ⟨hfin, by rw [f64Real, hvalue, Nat.cast_one, Rat.cast_one]⟩

theorem binary64_followsValues : FollowsValues binary64 f64Real where
  finite_zero := by decide +kernel
  value_zero := f64Real_eq_zero.mpr (by decide +kernel)
  fgt_iff ha hb := (f64Compare_of_finite ha hb).1
  feq_iff ha hb := (f64Compare_of_finite ha hb).2.2
  clear_congr ha hb ha' hb' hap hbp hap' hbp' h :=
    congrArg (f64Ge · (kconf binary64)) (f64Div_congr ha hb ha' hb' hap hbp hap' hbp' h)
  not_clear_self {a} ha hpos := by
    obtain ⟨hfin, hone⟩ := f64OfNat_one_value
    have hquot : f64Real a / f64Real a = f64Real (f64OfNat 1) / f64Real (f64OfNat 1) := by
      rw [div_self hpos.ne', hone, div_one]
    have hone_pos : 0 < f64Real (f64OfNat 1) := hone ▸ one_pos
    rw [binary64_fge, binary64_fdiv, f64Div_congr ha ha hfin hfin hpos hpos hone_pos hone_pos hquot]
    decide +kernel

/-- Settles O24: the index of the second maximum may be any that holds it (`classify_eq_some_iff_of_isSecond`). -/
theorem classifyAcceptsClearMaximum : Obligations.ClassifyAcceptsClearMaximum := by
  intro q k
  by_cases hfin : ∀ j : Fin 16, f64Finite q[j] = true
  · rw [and_iff_right hfin]
    have hzero : f64Finite 0#64 = true := binary64_followsValues.finite_zero
    have hsecond (m : Fin 16) :
        (m ≠ k ∧ ∀ j : Fin 16, j ≠ k → f64Ge q[m] q[j] = true) ↔ IsSecond f64Real q k m := by
      simp only [IsSecond, (f64Compare_of_finite (hfin m) (hfin _)).2.1]
    have hrest {m : Fin 16} (hm : IsSecond f64Real q k m) :
        classify binary64 q = some k ↔ f64Gt q[k] q[m] = true ∧
          ((f64Gt q[m] 0#64 = true ∧ f64Ge (f64Div q[k] q[m]) 0x3FF020C49BA5E354#64 = true) ∨
           (f64Eq q[m] 0#64 = true ∧ f64Gt q[k] 0#64 = true)) := by
      have hacc := binary64_followsValues.accepts_iff (hfin k) (hfin m)
      rw [← binary64_followsValues.fgt_zero_iff (hfin m), ← binary64_followsValues.feq_zero_iff (hfin m),
        ← binary64_followsValues.fgt_zero_iff (hfin k), constantPatterns.2] at hacc
      rw [binary64_followsValues.classify_eq_some_iff_of_isSecond hfin hm, hacc,
        (f64Compare_of_finite (hfin k) (hfin m)).1]
      rfl
    constructor
    · intro hk
      obtain ⟨m, hm, -⟩ := binary64_followsValues.exists_maxOthers_eq hfin k
      obtain ⟨hmk, hge⟩ := (hsecond m).mpr hm
      exact ⟨m, hmk, hge, (hrest hm).mp hk⟩
    · rintro ⟨m, hmk, hge, h⟩
      exact (hrest ((hsecond m).mp ⟨hmk, hge⟩)).mpr h
  · refine iff_of_false (fun hk => hfin ?_) fun h => hfin h.1
    exact (classify_eq_some_iff.mp hk).1

/-- Settles O25: the factor on the rational values is a factor on the real ones. -/
theorem classifyIgnoresExactScaling : Obligations.ClassifyIgnoresExactScaling := by
  intro q q' c hc h
  refine binary64_followsValues.classify_scaled (fun k => (h k).1) (c := c) (Rat.cast_pos.mpr hc) (fun k => (h k).2.1)
    fun k => ?_
  rw [f64Real, f64Real, (h k).2.2, Rat.cast_mul]

/-! ### The real numbers -/

theorem kconf_reals : kconf reals = 1.008 := by
  rw [kconf, reals_lit]
  norm_num

theorem reals_followsValues : FollowsValues reals id where
  finite_zero := rfl
  value_zero := rfl
  fgt_iff _ _ := reals_fgt _ _
  feq_iff _ _ := reals_feq _ _
  clear_congr _ _ _ _ _ _ _ _ h := congrArg (reals.fge · (kconf reals)) h
  not_clear_self {a} _ hpos := by
    rw [reals_fdiv, div_self (show a ≠ 0 from hpos.ne'), ← Bool.not_eq_true, reals_fge, kconf_reals]
    norm_num

/-- Settles O26: a positive second maximum is multiplied out of the quotient. -/
theorem realClassifyHasNoDivision : Obligations.RealClassifyHasNoDivision := by
  rintro q k _ ⟨m, hmk, rfl⟩ hle
  rw [reals_followsValues.classify_eq_some_iff_of_isSecond (m := m) (fun _ => rfl) ⟨hmk, hle⟩,
    reals_followsValues.accepts_iff rfl rfl, reals_fge, reals_fdiv, kconf_reals]
  simp only [id]
  constructor
  · rintro ⟨hlt, ⟨hpos, hclear⟩ | ⟨hzero, hpos⟩⟩
    · exact ⟨hpos.trans hlt, hpos.le, (le_div_iff₀ hpos).mp hclear⟩
    · exact ⟨hpos, hzero.ge, by rw [hzero, mul_zero]; exact hpos.le⟩
  · rintro ⟨hpos, hsecond, hclear⟩
    rcases hsecond.eq_or_lt with hzero | hsecond
    · exact ⟨hzero ▸ hpos, .inr ⟨hzero.symm, hpos⟩⟩
    · exact ⟨by linarith, .inl ⟨hsecond, (le_div_iff₀ hsecond).mpr hclear⟩⟩

end Sys2Proof.Machine
end

section
/-! The commands CLS, NCLR and RDFT (43_classifier.md R99 to R102). -/

namespace Sys2Proof

theorem word_encode_rdft (idx : Nat) : (encode (.rdft idx)).word = BitVec.ofNat 32 (0x42000000 + idx) :=
  congrArg (fun n => BitVec.ofNat 32 (n + idx)) (show 0x42 * 2 ^ 24 = 0x42000000 by norm_num)

theorem decode_rdft (d : F64) {idx : Nat} (h : idx ≤ 31) :
    decode (BitVec.ofNat 32 (0x42000000 + idx)) d = .ok (.rdft idx) :=
  word_encode_rdft idx ▸ decode_word_encode (i := .rdft idx) (decide_eq_true h) d

end Sys2Proof

namespace Sys2Proof.Machine

/-! ### The fields of the response to a valid symbol -/

theorem toNat_append_add {m n : Nat} (x : BitVec m) (y : BitVec n) : (x ++ y).toNat = x.toNat * 2 ^ n + y.toNat := by
  rw [BitVec.toNat_append, ← Nat.shiftLeft_add_eq_or_of_lt y.isLt, Nat.shiftLeft_eq]

/-- `IVAL` as a number: four zero bits, the nibble, the byte (43_classifier.md R100). -/
theorem ival_symbol (k : Fin 16) (byte : Byte) :
    (0#4 ++ BitVec.ofNat 4 k.val ++ byte : BitVec 16) = BitVec.ofNat 16 (k.val * 256 + byte.toNat) := by
  have hbyte := byte.isLt
  apply BitVec.eq_of_toNat_eq
  rw [toNat_append_add, toNat_append_add, BitVec.toNat_ofNat, BitVec.toNat_ofNat, BitVec.toNat_ofNat]
  omega

theorem toNat_nibble_append (hi : BitVec 4) (lo : Fin 16) :
    (hi ++ BitVec.ofNat 4 lo.val : Byte).toNat = hi.toNat * 16 + lo.val := by
  rw [toNat_append_add, BitVec.toNat_ofNat, Nat.mod_eq_of_lt lo.isLt, show 2 ^ 4 = 16 from rfl]

/-! ### The commands by their branches -/

section
variable {ρ α : Type} {N : Numerics ρ α} {p : Params ρ α} {b : Block α} {k : Fin 16}

theorem classifySymbol_of_notFull (hw : b.win.length ≠ p.nSym) : classifySymbol N p b = raise N .notFull b := by
  simpa [hw] using classifySymbol_cases N p b

theorem classifySymbol_of_invalid (hw : b.win.length = p.nSym) (hc : classify N (nibblePowers N p b) = none) :
    classifySymbol N p b = respond b false false 0#16 N.zero := by
  simpa [hw, hc] using classifySymbol_cases N p b

theorem classifySymbol_of_high (hw : b.win.length = p.nSym) (hc : classify N (nibblePowers N p b) = some k)
    (hv : b.nibv = false) :
    classifySymbol N p b =
      respond { b with nibbuf := BitVec.ofNat 4 k.val, nibv := true } true false
        (0#4 ++ BitVec.ofNat 4 k.val ++ 0#8) N.zero := by
  simpa [hw, hc, hv] using classifySymbol_cases N p b

theorem classifySymbol_of_low (hw : b.win.length = p.nSym) (hc : classify N (nibblePowers N p b) = some k)
    (hv : b.nibv = true) :
    classifySymbol N p b =
      respond { b with nibbuf := 0#4, nibv := false } true true
        (0#4 ++ BitVec.ofNat 4 k.val ++ (b.nibbuf ++ BitVec.ofNat 4 k.val : Byte)) N.zero := by
  simpa [hw, hc, hv] using classifySymbol_cases N p b

variable [Add ρ] [Mul ρ] [NatCast ρ] {idx : Nat}

theorem readFreq_of_ge (h : 19 ≤ idx) : readFreq N p idx b = raise N .index b := by
  rw [readFreq, trackedIndex_of_ge h]

theorem readFreq_of_lt (h : idx < 19) :
    readFreq N p idx b = respond b false false 0#16 (N.nearest (exactFreq p ⟨idx, h⟩)) := by
  rw [readFreq, trackedIndex_of_lt h]
  rfl

end

section
variable (s : State)

theorem exec_cls : exec .cls s = .next (s.finish (classifySymbol binary64 s.params s.toBlock)) := rfl

theorem exec_nclr : exec .nclr s = .next (s.finish (nibbleClear binary64 s.toBlock)) := rfl

theorem exec_rdft (idx : Nat) :
    exec (.rdft idx) s = .next (s.finish (readFreq binary64 s.params idx s.toBlock)) := rfl

end

/-! ### CLS -/

/-- Settles O27: the word's fields are those of CLS, and each clause is one branch of the command. -/
theorem clsClassifiesAndAssembles : Obligations.ClsClassifiesAndAssembles := by
  refine ⟨decode_of_fields (i := .cls) (by decide) (by decide), fun s => ?_⟩
  rw [exec_cls]
  refine ⟨fun hw => ?_, fun hw =>
    ⟨nibblePowers binary64 s.params s.toBlock, nibblePowers_get _ _ _, fun hc => ?_, fun k hc =>
      ⟨fun hv => ?_, fun hv => ?_⟩⟩⟩
  · rw [classifySymbol_of_notFull hw]
    exact ⟨_, rfl, reportsFault_raise ..⟩
  · rw [classifySymbol_of_invalid hw hc]
    exact ⟨_, rfl, reports_respond ..⟩
  · rw [classifySymbol_of_high hw hc hv, ival_symbol, show (0#8).toNat = 0 from rfl, Nat.add_zero]
    exact ⟨_, rfl, reports_respond ..⟩
  · rw [classifySymbol_of_low hw hc hv, ival_symbol, toNat_nibble_append, ← Nat.add_assoc]
    exact ⟨_, rfl, reports_respond ..⟩

/-- Settles O28: the first symbol leaves its nibble pending, and the second puts its own below it. -/
theorem twoValidSymbolsDeliverByte : Obligations.TwoValidSymbolsDeliverByte := by
  intro s t u v hi lo hv hw hc hexec huv hubuf huw huc hexec'
  rw [exec_cls, classifySymbol_of_high hw hc hv] at hexec
  obtain rfl := Host.Outcome.next.inj hexec
  rw [exec_cls, classifySymbol_of_low huw huc huv] at hexec'
  obtain rfl := Host.Outcome.next.inj hexec'
  refine ⟨rfl, rfl, _, rfl, byteRdy_statWord .., ?_⟩
  have hpending : u.nibbuf = BitVec.ofNat 4 hi.val := hubuf
  rw [respond, ival_statWord, BitVec.extractLsb'_append_eq_right, toNat_nibble_append, hpending, BitVec.toNat_ofNat,
    Nat.mod_eq_of_lt hi.isLt]

/-- Settles O60: without energy at the nibble tones all sixteen powers are zero, normalised or not, and equal powers are
no valid symbol. That the divisor is positive gives the quotient its meaning; Lean's `0 / d` is 0 for every `d`. -/
theorem realSilentWindowIsInvalid : Obligations.RealSilentWindowIsInvalid := by
  intro p b hw _ hsilent
  have hpower (k : Fin 16) : (nibblePowers reals p b)[k] = 0 := by
    have hraw : rawPower reals p b.win ⟨3 + k.val, by omega⟩ = 0 := hsilent k
    rw [nibblePowers_get]
    cases hon : b.nfen
    · rw [normPower_of_disabled _ _ _ hon, hraw]
    · rw [normPower_of_enabled _ _ _ hon, hraw, reals_fdiv, zero_div]
  rw [classifySymbol_of_invalid hw (reals_followsValues.classify_of_forall_eq (fun _ => rfl) hpower)]
  rfl

/-! ### NCLR -/

/-- Settles O29: the word's fields are those of NCLR, and the command is one write to the nibble registers. -/
theorem nclrDropsPendingNibble : Obligations.NclrDropsPendingNibble := by
  refine ⟨decode_of_fields (i := .nclr) (by decide) (by decide), fun s => ?_⟩
  rw [exec_nclr, nibbleClear]
  exact ⟨_, rfl, reports_respond ..⟩

/-! ### RDFT -/

/-- A reading of the frequency table changes nothing and answers the NUM nearest the exact frequency. -/
theorem exec_rdft_of_lt (s : State) {idx : Nat} (h : idx < 19) :
    ∃ r, exec (.rdft idx) s = .next { s with out := r :: s.out } ∧
      Reports r false false 0#16 (f64Lit (exactFreq s.params ⟨idx, h⟩)) := by
  rw [exec_rdft, readFreq_of_lt h]
  exact ⟨_, rfl, reports_respond ..⟩

theorem exec_rdft_of_ge (s : State) {idx : Nat} (h : 19 ≤ idx) :
    ∃ r, exec (.rdft idx) s = .next { s with esr := s.esr ||| 0x04#8, out := r :: s.out } ∧ ReportsFault r 2 := by
  rw [exec_rdft, readFreq_of_ge h]
  exact ⟨_, rfl, reportsFault_raise ..⟩

/-- 43_classifier.md R96: entry `3 + k` is the tone of nibble `k`. -/
theorem exactFreq_nibble {p : Params ℚ F64} {k : Nat} (h : 3 + k < 19) :
    exactFreq p ⟨3 + k, h⟩ = p.fNib0 + (k : ℚ) * p.fStep := by
  simp only [exactFreq, Nat.add_comm 3 k]

/-- No index is answered with an infinity or a NaN (30_encoding.md R57, log entry 10). -/
theorem exec_rdft_finite {s t : State} {r : Response F64} {idx : Nat} (hexec : exec (.rdft idx) s = .next t)
    (hout : t.out = r :: s.out) : f64Finite r.data = true := by
  have hfin : f64Finite (blockStep binary64 s.params (.rdft idx) 0#64 s.toBlock).2.data = true := by
    simpa using blockStep_data s.params (.rdft idx) 0#64 s.toBlock
  obtain rfl := Host.Outcome.next.inj hexec
  obtain rfl := (List.cons.inj hout).1
  exact hfin

/-- Settles O30: the index test decides between the fault and an entry of the table. -/
theorem rdftReadsFrequencyTable : Obligations.RdftReadsFrequencyTable := by
  refine ⟨fun d _ => decode_rdft d, fun s => ⟨fun _ => exec_rdft_of_ge s, exec_rdft_of_lt s (by omega),
    exec_rdft_of_lt s (by omega), exec_rdft_of_lt s (by omega), fun k hk => ?_, fun _ _ _ => exec_rdft_finite⟩⟩
  have hidx : 3 + k < 19 := by omega
  rw [← exactFreq_nibble hidx]
  exact exec_rdft_of_lt s hidx

end Sys2Proof.Machine
end

section
/-! The commands CKCLR, CKADD, CKRD and CKCMP (44_checksum.md R112 to R115), and the checksum of a packet (R110, R116). -/

namespace Sys2Proof

theorem word_encode_ckadd (imm8 : Nat) : (encode (.ckadd imm8)).word = BitVec.ofNat 32 (0x51000000 + imm8) :=
  congrArg (fun n => BitVec.ofNat 32 (n + imm8)) (show 0x51 * 2 ^ 24 = 0x51000000 by norm_num)

theorem decode_ckadd (d : F64) {imm8 : Nat} (h : imm8 ≤ 255) :
    decode (BitVec.ofNat 32 (0x51000000 + imm8)) d = .ok (.ckadd imm8) :=
  word_encode_ckadd imm8 ▸ decode_word_encode (i := .ckadd imm8) (decide_eq_true h) d

theorem word_encode_ckcmp (imm16 : Nat) : (encode (.ckcmp imm16)).word = BitVec.ofNat 32 (0x53000000 + imm16) :=
  congrArg (fun n => BitVec.ofNat 32 (n + imm16)) (show 0x53 * 2 ^ 24 = 0x53000000 by norm_num)

theorem decode_ckcmp (d : F64) {imm16 : Nat} (h : imm16 ≤ 65535) :
    decode (BitVec.ofNat 32 (0x53000000 + imm16)) d = .ok (.ckcmp imm16) :=
  word_encode_ckcmp imm16 ▸ decode_word_encode (i := .ckcmp imm16) (decide_eq_true h) d

end Sys2Proof

namespace Sys2Proof.Machine

/-! ### The accumulator as a number and as bytes -/

/-- Adding a byte wraps silently at 16 bits. -/
theorem toNat_add_imm8Word (ck : BitVec 16) (n : Nat) : (ck + imm8Word n).toNat = (ck.toNat + n) % 65536 := by
  rw [imm8Word, BitVec.toNat_add, BitVec.toNat_ofNat, Nat.add_mod_mod]

/-- All sixteen bits match exactly when the numbers are equal. -/
theorem eq_imm16Word_iff (ck : BitVec 16) {n : Nat} (h : n ≤ 65535) : ck = imm16Word n ↔ ck.toNat = n := by
  rw [← BitVec.toNat_inj, imm16Word, BitVec.toNat_ofNat, Nat.mod_eq_of_lt (by omega)]

/-- The receiver's word is the one the two wire bytes were taken from (20_memory.md R42). -/
theorem ofWireBytes_wireBytes (ck : BitVec 16) : ofWireBytes (wireBytes ck).1 (wireBytes ck).2 = ck :=
  BitVec.extractLsb'_append_extractLsb' (w := 8) (len := 8)

theorem wireBytes_toNat (ck : BitVec 16) : (wireBytes ck).1.toNat * 256 + (wireBytes ck).2.toNat = ck.toNat := by
  have happend := toNat_append_add (wireBytes ck).1 (wireBytes ck).2
  exact happend.symm.trans (congrArg BitVec.toNat (ofWireBytes_wireBytes ck))

/-- A field of a field is a field of the whole. -/
theorem extractLsb'_extractLsb'_add {w start len start' len' : Nat} (h : start + len ≤ len') (x : BitVec w) :
    (x.extractLsb' start' len').extractLsb' start len = x.extractLsb' (start' + start) len := by
  ext i hi
  have hlt : start + i < len' := by omega
  rw [BitVec.getElem_extractLsb', BitVec.getElem_extractLsb', BitVec.getLsbD_extractLsb', decide_eq_true hlt,
    Bool.true_and, Nat.add_assoc]

/-- The wire bytes of `IVAL` are the upper two bytes of the response word (30_encoding.md R56). -/
theorem wireBytes_ival {α : Type} (r : Response α) :
    wireBytes r.ival = (r.stat.extractLsb' 24 8, r.stat.extractLsb' 16 8) :=
  Prod.ext (extractLsb'_extractLsb'_add (by decide) r.stat) (extractLsb'_extractLsb'_add (by decide) r.stat)

/-! ### The four commands -/

section
variable (s : State)

theorem exec_ckclr : exec .ckclr s = .next (s.finish (checksumClear binary64 s.toBlock)) := rfl

theorem exec_ckadd (imm8 : Nat) : exec (.ckadd imm8) s = .next (s.finish (checksumAdd binary64 imm8 s.toBlock)) := rfl

theorem exec_ckrd : exec .ckrd s = .next (s.finish (checksumRead binary64 s.toBlock)) := rfl

theorem exec_ckcmp (imm16 : Nat) :
    exec (.ckcmp imm16) s = .next (s.finish (checksumCompare binary64 imm16 s.toBlock)) := rfl

end

theorem checksumCompare_of_le {ρ α : Type} (N : Numerics ρ α) {imm16 : Nat} (h : imm16 ≤ 65535) (b : Block α) :
    checksumCompare N imm16 b = respond b (decide (b.ck.toNat = imm16)) false b.ck N.zero := by
  simp only [checksumCompare, eq_imm16Word_iff b.ck h]

/-- Settles O31: the word's fields are those of CKCLR, and the command is one write to the accumulator. -/
theorem ckclrZeroesChecksum : Obligations.CkclrZeroesChecksum := by
  refine ⟨decode_of_fields (i := .ckclr) (by decide) (by decide), fun s => ?_⟩
  rw [exec_ckclr, checksumClear]
  exact ⟨_, rfl, reports_respond ..⟩

/-- Settles O32: the new value is the 16-bit sum, and it is what the response carries. -/
theorem ckaddAddsByteModulo65536 : Obligations.CkaddAddsByteModulo65536 := by
  refine ⟨fun d _ => decode_ckadd d, fun s imm8 _ => ?_⟩
  rw [exec_ckadd, checksumAdd]
  exact ⟨_, s.ck + imm8Word imm8, rfl, toNat_add_imm8Word .., reports_respond ..⟩

/-- Settles O33: `IVAL` is the accumulator, so its wire bytes give the accumulator back. -/
theorem ckrdReadsChecksum : Obligations.CkrdReadsChecksum := by
  refine ⟨decode_of_fields (i := .ckrd) (by decide) (by decide), fun s => ?_⟩
  have hival : (checksumRead binary64 s.toBlock).2.ival = s.ck := ival_statWord ..
  refine ⟨_, exec_ckrd s, reports_respond .., wireBytes_ival _, ?_, ?_⟩
  · rw [hival, wireBytes_toNat]
  · rw [hival, ofWireBytes_wireBytes]

/-- Settles O34: the comparison of the words is that of the numbers. -/
theorem ckcmpComparesAllBits : Obligations.CkcmpComparesAllBits := by
  refine ⟨fun d _ => decode_ckcmp d, fun s imm16 h => ?_⟩
  rw [exec_ckcmp, checksumCompare_of_le binary64 h]
  exact ⟨_, rfl, reports_respond ..⟩

/-! ### The sum of a packet -/

section
variable (p : Params ℚ F64) (bytes : List Nat) (b : Block F64)

/-- 44_checksum.md R110: one CKADD after another adds the sum of the bytes. -/
theorem runBlock_map_ckadd :
    runBlock p (bytes.map .ckadd) b = { b with ck := b.ck + BitVec.ofNat 16 bytes.sum } := by
  induction bytes generalizing b with
  | nil => simp
  | cons n bytes ih =>
    have hadd : (blockStep binary64 p (.ckadd n) (Instr.ckadd n).data b).1 = { b with ck := b.ck + imm8Word n } := rfl
    rw [List.map_cons, runBlock_cons, hadd, ih, List.sum_cons, BitVec.ofNat_add, ← BitVec.add_assoc,
      imm8Word]

/-- CKSUM leaves the sum of its bytes alone, whatever the accumulator held before. -/
theorem runBlock_cksum : runBlock p (Pseudo.cksum bytes).expand b = { b with ck := BitVec.ofNat 16 bytes.sum } := by
  have hclear : (blockStep binary64 p .ckclr Instr.ckclr.data b).1 = { b with ck := 0#16 } := rfl
  rw [Pseudo.expand, runBlock_cons, hclear, runBlock_map_ckadd, BitVec.zero_add]

end

theorem wellFormed_of_mem_map_ckadd {bytes : List Nat} (h : ∀ n ∈ bytes, n ≤ 255) :
    ∀ i ∈ bytes.map Instr.ckadd, i.wellFormed = true :=
  List.forall_mem_map.mpr fun n hn => decide_eq_true (h n hn)

theorem wellFormed_of_mem_expand_cksum {bytes : List Nat} (h : ∀ n ∈ bytes, n ≤ 255) :
    ∀ i ∈ (Pseudo.cksum bytes).expand, i.wellFormed = true :=
  List.forall_mem_cons.mpr ⟨rfl, wellFormed_of_mem_map_ckadd h⟩

/-- Settles O35: the run of the presented commands is their effect on the block. -/
theorem checksumIsSumOfBytes : Obligations.ChecksumIsSumOfBytes := by
  intro s bytes h
  obtain ⟨t, hrun, hblock, -⟩ := runAll_encode (wellFormed_of_mem_map_ckadd h) s
  rw [List.map_map] at hrun
  refine ⟨t, hrun, ?_⟩
  rw [hblock, runBlock_map_ckadd, BitVec.ofNat_add, BitVec.ofNat_toNat, BitVec.setWidth_eq]

/-! ### The last response of a run -/

/-- The instruction presented last answers in the state that the ones before it left. -/
theorem run_presented_concat {is : List Instr} (his : ∀ i ∈ is, i.wellFormed = true) {i : Instr}
    (hi : i.wellFormed = true) {s : State} (hin : s.inputs = ((is ++ [i]).map encode).map .command) :
    ∃ t r, Host.Core.run core (is.length + 1) s = .next t ∧ t.out.head? = some r ∧
      r.UpToNan (blockStep binary64 s.params i i.data (runBlock s.params is s.toBlock)).2 := by
  induction is generalizing s with
  | nil =>
    obtain ⟨t, r, hstep, hout, -, -, hr⟩ := step_command hin
    rw [commandStep_of_decode_ok _ _ _ (decodeEncodeRoundTrip i hi)] at hr
    exact ⟨t, r, run_succ_of_step hstep 0, by rw [hout, List.head?_cons], hr⟩
  | cons j is ih =>
    obtain ⟨hj, his⟩ := List.forall_mem_cons.mp his
    obtain ⟨u, hstep, hinputs, hparams, hblock, -⟩ := step_encode hj hin
    obtain ⟨t, r, hrun, hout, hr⟩ := ih his hinputs
    rw [hparams, hblock, ← runBlock_cons] at hr
    exact ⟨t, r, (run_succ_of_step hstep _).trans hrun, hout, hr⟩

/-- `run_presented_concat` for the commands of `runAll`. -/
theorem runAll_encode_concat {is : List Instr} (his : ∀ i ∈ is, i.wellFormed = true) {i : Instr}
    (hi : i.wellFormed = true) (s : State) :
    ∃ t r, runAll s ((is ++ [i]).map encode) = .next t ∧ t.out.head? = some r ∧
      r.UpToNan (blockStep binary64 s.params i i.data (runBlock s.params is s.toBlock)).2 := by
  rw [runAll, List.length_map, List.length_append, List.length_singleton]
  exact run_presented_concat his hi (s := { s with inputs := ((is ++ [i]).map encode).map .command }) rfl

/-! ### The comparison of a packet with its checksum -/

/-- CKSUM and then CKCMP answer whether the sum of the bytes, modulo 65536, is the checksum received. -/
theorem runAll_cksum_ckcmp {bytes : List Nat} (h : ∀ n ∈ bytes, n ≤ 255) {sum : Nat} (hsum : sum ≤ 65535) (s : State) :
    ∃ t r, runAll s (((Pseudo.cksum bytes).expand ++ [Instr.ckcmp sum]).map encode) = .next t ∧
      t.out.head? = some r ∧ r.fault = 0#4 ∧ r.cond = decide (bytes.sum % 65536 = sum) := by
  obtain ⟨t, r, hrun, hout, hstat, -⟩ :=
    runAll_encode_concat (wellFormed_of_mem_expand_cksum h) (i := .ckcmp sum) (decide_eq_true hsum) s
  rw [runBlock_cksum, blockStep, checksumCompare_of_le binary64 hsum, BitVec.toNat_ofNat] at hstat
  refine ⟨t, r, hrun, hout, ?_, ?_⟩
  · rw [Response.fault, hstat]
    exact fault_statWord ..
  · rw [Response.cond, hstat]
    exact cond_statWord ..

/-- One byte changed moves the sum by less than 256, so it moves modulo 65536 (44_checksum.md R116). -/
theorem sum_mod_ne_of_changed_byte (pre post : List Nat) {v v' : Nat} (hv : v ≤ 255) (hv' : v' ≤ 255) (hne : v' ≠ v) :
    (pre ++ v' :: post).sum % 65536 ≠ (pre ++ v :: post).sum % 65536 := by
  rw [List.sum_append, List.sum_append, List.sum_cons, List.sum_cons]
  omega

/-- Settles O36: the comparison answers whether the two sums agree modulo 65536. -/
theorem checksumDetectsOneChangedByte : Obligations.ChecksumDetectsOneChangedByte := by
  intro s pre post v v' hpre hpost hv hv' hne
  have hbytes {n : Nat} (hn : n ≤ 255) : ∀ b ∈ pre ++ n :: post, b ≤ 255 :=
    List.forall_mem_append.mpr ⟨hpre, List.forall_mem_cons.mpr ⟨hn, hpost⟩⟩
  have hsum : (pre ++ v :: post).sum % 65536 ≤ 65535 := by omega
  have hchanged := runAll_cksum_ckcmp (hbytes hv') hsum s
  have hsame := runAll_cksum_ckcmp (hbytes hv) hsum s
  rw [decide_eq_false (sum_mod_ne_of_changed_byte pre post hv hv' hne)] at hchanged
  rw [decide_eq_true rfl] at hsame
  exact ⟨hchanged, hsame⟩

end Sys2Proof.Machine
end

section
/-! The system commands NOP, SRST, DCLR and RDST (45_system.md R120 to R123), and the status word field by field. -/

namespace Sys2Proof.Machine

/-! ### The fields of the status word (10_state.md R29) -/

section
variable {ρ α : Type} (p : Params ρ α) (b : Block α)

theorem statusWord_wfull : (statusWord p b).getLsbD 0 = decide (b.win.length = p.nSym) :=
  statusWord_getLsbD p b 0

theorem statusWord_nfen : (statusWord p b).getLsbD 1 = b.nfen := statusWord_getLsbD p b 1

theorem statusWord_nibv : (statusWord p b).getLsbD 2 = b.nibv := statusWord_getLsbD p b 2

theorem statusWord_reserved : (statusWord p b).getLsbD 3 = false := statusWord_getLsbD p b 3

theorem statusWord_nibbuf : (statusWord p b).extractLsb' 4 4 = b.nibbuf := by
  ext i hi
  have hpos : ¬ 4 + i = 0 ∧ ¬ 4 + i = 1 ∧ ¬ 4 + i = 2 ∧ ¬ 4 + i = 3 ∧ 4 + i < 8 := by omega
  rw [BitVec.getElem_extractLsb', statusWord_getLsbD]
  simp only [hpos, if_false, if_true, Nat.add_sub_cancel_left]
  exact BitVec.getLsbD_eq_getElem hi

theorem statusWord_esr : (statusWord p b).extractLsb' 8 8 = b.esr := by
  ext i hi
  have hpos : ¬ 8 + i = 0 ∧ ¬ 8 + i = 1 ∧ ¬ 8 + i = 2 ∧ ¬ 8 + i = 3 ∧ ¬ 8 + i < 8 := by omega
  rw [BitVec.getElem_extractLsb', statusWord_getLsbD]
  simp only [hpos, if_false, Nat.add_sub_cancel_left]
  exact BitVec.getLsbD_eq_getElem hi

end

/-! ### The four commands -/

section
variable (s : State)

theorem exec_nop : exec .nop s = .next (s.finish (noOperation binary64 s.toBlock)) := rfl

theorem exec_srst : exec .srst s = .next (s.finish (softReset binary64 s.toBlock)) := rfl

theorem exec_dclr : exec .dclr s = .next (s.finish (decoderClear binary64 s.toBlock)) := rfl

theorem exec_rdst : exec .rdst s = .next (s.finish (readStatus binary64 s.params s.toBlock)) := rfl

end

/-- Settles O7: the all-zero word's fields are those of NOP, whose effect keeps the block it is given. -/
theorem nopDoesNothing : Obligations.NopDoesNothing := by
  refine ⟨decode_of_fields (i := .nop) (by decide) (by decide), fun s => ?_⟩
  rw [exec_nop, noOperation]
  exact ⟨_, rfl, reports_respond ..⟩

/-- Settles O8: the word's fields are those of SRST, and the block it leaves is `Block.reset`. -/
theorem srstGivesResetState : Obligations.SrstGivesResetState := by
  refine ⟨decode_of_fields (i := .srst) (by decide) (by decide), fun s => ?_⟩
  rw [exec_srst, softReset]
  exact ⟨_, rfl, reports_respond ..⟩

/-- 45_system.md R122: DCLR's write is CKCLR's and then NCLR's. -/
theorem decoderClear_eq_checksumClear_nibbleClear {ρ α : Type} (N : Numerics ρ α) (b : Block α) :
    (decoderClear N b).1 = (nibbleClear N (checksumClear N b).1).1 := rfl

/-- Settles O9: the word's fields are those of DCLR; what it writes is what CKCLR and then NCLR write. -/
theorem dclrClearsDecoderSide : Obligations.DclrClearsDecoderSide := by
  refine ⟨decode_of_fields (i := .dclr) (by decide) (by decide), fun s => ?_, fun s t u v hdclr hckclr hnclr => ?_⟩
  · rw [exec_dclr, decoderClear]
    exact ⟨_, rfl, reports_respond ..⟩
  · obtain rfl := Host.Outcome.next.inj ((exec_dclr s).symm.trans hdclr)
    obtain rfl := Host.Outcome.next.inj ((exec_ckclr s).symm.trans hckclr)
    obtain rfl := Host.Outcome.next.inj ((exec_nclr _).symm.trans hnclr)
    exact (decoderClear_eq_checksumClear_nibbleClear binary64 s.toBlock).symm

/-- Settles O10: the word's fields are those of RDST, and `IVAL` is the status word. -/
theorem rdstReadsStatus : Obligations.RdstReadsStatus := by
  refine ⟨decode_of_fields (i := .rdst) (by decide) (by decide), fun s => ⟨_, exec_rdst s, ?_⟩⟩
  obtain ⟨hfault, hcond, hrdy, hres, hival, hdata⟩ :
      Reports (readStatus binary64 s.params s.toBlock).2 false false (statusWord s.params s.toBlock) 0#64 :=
    reports_respond ..
  rw [hival]
  exact ⟨hfault, hcond, hrdy, hres, hdata, statusWord_wfull .., statusWord_nfen .., statusWord_nibv ..,
    statusWord_reserved .., statusWord_nibbuf .., statusWord_esr ..⟩

end Sys2Proof.Machine
end

section
/-! Command faults: the code each command reports, and what a faulting command leaves (60_exceptions.md R130 to R138). -/

namespace Sys2Proof.Machine

/-! ### The code of each command with tests, in the order of its tests (60_exceptions.md R137) -/

section
variable {ρ α : Type} (N : Numerics ρ α) (p : Params ρ α) (b : Block α)

@[simp] theorem raise_fault_toNat (c : Cause) : (raise N c b).2.fault.toNat = c.code := by
  rw [raise_fault]
  cases c <;> rfl

@[simp] theorem respond_fault (cond byteRdy : Bool) (ival : BitVec 16) (data : α) :
    (respond b cond byteRdy ival data).2.fault = 0#4 :=
  fault_statWord ..

theorem readPower_fault (power : Fin 19 → α) (idx : Nat) :
    (readPower N p power idx b).2.fault.toNat =
      if 18 < idx then 2 else if b.win.length ≠ p.nSym then 3 else 0 := by
  rcases readPower_cases N p power idx b with ⟨hidx, e⟩ | ⟨hidx, hw, e⟩ | ⟨hidx, hw, e⟩
  · simp [e, Cause.code, Nat.lt_of_succ_le hidx]
  · simp [e, Cause.code, (Nat.le_of_lt_succ hidx).not_gt, hw]
  · simp [e, (Nat.le_of_lt_succ hidx).not_gt, hw]

theorem windowPush_fault (x : α) : (windowPush N p x b).2.fault.toNat = if N.finite x then 0 else 4 := by
  rcases windowPush_cases N p x b with ⟨hx, e⟩ | ⟨hx, e⟩ <;> simp [e, hx, Cause.code]

theorem classifySymbol_fault :
    (classifySymbol N p b).2.fault.toNat = if b.win.length ≠ p.nSym then 3 else 0 := by
  rcases classifySymbol_cases N p b with ⟨hw, e⟩ | ⟨hw, -, e⟩ | ⟨k, hw, -, -, e⟩ | ⟨k, hw, -, -, e⟩ <;>
    simp [e, hw, Cause.code]

theorem calAccumulate_fault :
    (calAccumulate N p b).2.fault.toNat =
      if b.win.length ≠ p.nSym then 3
      else if b.calcnt.toNat = 65535 then 5
      else if ∀ i : Fin 19, N.finite (rawPower N p b.win i) = true then 0
      else 4 := by
  have hcount : b.calcnt.toNat = 65535 ↔ b.calcnt = 65535#16 := BitVec.toNat_inj (y := 65535#16)
  simp only [hcount, ← windowPowers_all]
  rcases calAccumulate_cases N p b with ⟨hw, e⟩ | ⟨hw, hc, e⟩ | ⟨hw, hc, hg, e⟩ | ⟨hw, hc, hg, e⟩
  · simp [e, hw, Cause.code]
  · simp [e, hw, hc, Cause.code]
  · rw [e, if_neg (not_not.mpr hw), if_neg hc, hg, raise_fault_toNat]
    rfl
  · rw [e, if_neg (not_not.mpr hw), if_neg hc, hg, respond_fault]
    rfl

theorem calFinish_fault : (calFinish N b).2.fault = 0#4 := by
  rcases calFinish_cases N b with ⟨-, e⟩ | ⟨-, e⟩ <;> rw [e, respond_fault]

theorem readNoise_fault (idx : Nat) : (readNoise N idx b).2.fault.toNat = if 18 < idx then 2 else 0 := by
  rcases readNoise_cases N idx b with ⟨hidx, e⟩ | ⟨hidx, e⟩
  · simp [e, Cause.code, Nat.lt_of_succ_le hidx]
  · simp [e, (Nat.le_of_lt_succ hidx).not_gt]

theorem readFreq_fault [Add ρ] [Mul ρ] [NatCast ρ] (idx : Nat) :
    (readFreq N p idx b).2.fault.toNat = if 18 < idx then 2 else 0 := by
  rcases readFreq_cases N p idx b with ⟨hidx, e⟩ | ⟨hidx, e⟩
  · simp [e, Cause.code, Nat.lt_of_succ_le hidx]
  · simp [e, (Nat.le_of_lt_succ hidx).not_gt]

end

/-! ### Every command -/

/-- The command function reports the first failing test of an instruction. -/
theorem blockStep_fault (p : Params ℚ F64) (i : Instr) (b : Block F64) :
    (blockStep binary64 p i i.data b).2.fault.toNat = expectedFault p b (.ok i) := by
  cases i <;> simp only [blockStep]
  case gzr | gzn => exact readPower_fault ..
  case rdnf => exact readNoise_fault ..
  case rdft => exact readFreq_fault ..
  case wpush => exact windowPush_fault ..
  case cls => exact classifySymbol_fault ..
  case calacc => exact calAccumulate_fault ..
  case calfin => exact congrArg BitVec.toNat (calFinish_fault ..)
  all_goals exact congrArg BitVec.toNat (respond_fault ..)

/-- `E_NONFIN` needs a number that is not finite: the sample of WPUSH, or a power of the window (60_exceptions.md R135). -/
theorem blockStep_fault_ne_nonFin {ρ α : Type} [Add ρ] [Mul ρ] [NatCast ρ] {N : Numerics ρ α} {p : Params ρ α} {x : α}
    {b : Block α} (hx : N.finite x = true) (hg : ∀ i : Fin 19, N.finite (rawPower N p b.win i) = true) (i : Instr) :
    (blockStep N p i x b).2.fault.toNat ≠ 4 := by
  cases i <;> simp only [blockStep, readRaw, readNorm]
  case gzr | gzn => rw [readPower_fault]; split_ifs <;> decide
  case rdnf => rw [readNoise_fault]; split_ifs <;> decide
  case rdft => rw [readFreq_fault]; split_ifs <;> decide
  case wpush => rw [windowPush_fault, if_pos hx]; decide
  case cls => rw [classifySymbol_fault]; split_ifs <;> decide
  case calacc => rw [calAccumulate_fault, if_pos hg]; split_ifs <;> decide
  case calfin => rw [calFinish_fault]; decide
  all_goals exact ne_of_eq_of_ne (congrArg BitVec.toNat (respond_fault ..)) (by decide)

/-- Settles O59: an illegal word reports code 1, and under `REAL` every number is finite. -/
theorem realNeverReportsNonfinite : Obligations.RealNeverReportsNonfinite := by
  intro p w x b hfault
  rw [commandStep] at hfault
  split at hfault
  · exact blockStep_fault_ne_nonFin (reals_finite x) (fun _ => reals_finite _) _ (congrArg BitVec.toNat hfault)
  · rw [raise_fault] at hfault
    exact absurd hfault (by decide)

/-! ### The step -/

section
variable {s : State} {c : Command} {rest : List Input}

/-- A faulting command leaves the presented state with the command taken, the `ESR` bit set and the fault answered
(60_exceptions.md R138). -/
theorem takeInput_finish_raise {e : Input} (hin : s.inputs = e :: rest) (cause : Cause) :
    s.takeInput.finish (raise binary64 cause s.toBlock) =
      { s with inputs := rest, esr := s.esr ||| cause.esrBit, out := (raise binary64 cause s.toBlock).2 :: s.out } := by
  rw [State.takeInput, hin]
  rfl

theorem exec_of_raise {i : Instr} {cause : Cause}
    (h : blockStep binary64 s.params i i.data s.toBlock = raise binary64 cause s.toBlock) :
    exec i s = .next (s.finish (raise binary64 cause s.toBlock)) := by
  rcases exec_eq_blockStep i s with e | ⟨-, e⟩ <;> rw [e, h]
  rw [State.finishPower_raise]

/-- A presented command raises one fault, or is answered with `FAULT = 0` (60_exceptions.md R130, R131). -/
theorem step_raises_or_completes (hin : s.inputs = .command c :: rest) :
    (∃ cause, step s = .next (s.takeInput.finish (raise binary64 cause s.toBlock))) ∨
    (∃ t r, step s = .next t ∧ t.out = r :: s.out ∧ r.fault = 0#4) := by
  cases hd : decode c.word c.data with
  | error => exact .inl ⟨.illegal, step_of_decode_error hin hd⟩
  | ok i =>
    rcases blockStep_cases binary64 s.params i i.data s.toBlock with ⟨cause, -, e⟩ | ⟨_, _, _, _, _, e⟩
    · exact .inl ⟨cause, (step_of_decode_ok hin hd).trans (exec_of_raise (s := s.takeInput) e)⟩
    · obtain ⟨t, r, hstep, hout, -, -, hstat, -⟩ := step_command hin
      rw [commandStep_of_decode_ok _ _ _ hd, e] at hstat
      exact .inr ⟨t, r, hstep, hout, by rw [Response.fault, hstat]; exact respond_fault ..⟩

end

/-- Settles O38: a word that decodes matches the row of its command, so this one is refused as illegal. -/
theorem unmatchedWordIsIllegal : Obligations.UnmatchedWordIsIllegal := by
  intro s c rest hin hnone
  cases hd : decode c.word c.data with
  | ok i =>
    obtain ⟨row, hrow, -, hmatch⟩ := (decodeAgreesWithOpcodeMap c.word c.data).1 i hd
    exact absurd hmatch (hnone row hrow)
  | error =>
    rw [step_of_decode_error hin hd, State.answerIllegal, State.takeInput_toBlock, takeInput_finish_raise hin]
    exact ⟨_, rfl, reportsFault_raise .illegal _⟩

/-- Settles O42: the step answers with the status word of the command function, which reports the first failing test. -/
theorem faultFollowsPriority : Obligations.FaultFollowsPriority := by
  intro s c rest hin
  obtain ⟨t, r, hstep, hout, -, -, hstat, -⟩ := step_command hin
  refine ⟨t, r, hstep, hout, ?_⟩
  rw [Response.fault, hstat]
  cases hd : decode c.word c.data with
  | ok i =>
    rw [commandStep_of_decode_ok _ _ _ hd]
    exact blockStep_fault ..
  | error =>
    rw [commandStep_of_decode_error _ _ _ hd]
    exact raise_fault_toNat ..

/-- Settles O43: a command answered with a fault has raised it, and `raise` sets one bit. -/
theorem faultingCommandChangesOnlyEsr : Obligations.FaultingCommandChangesOnlyEsr := by
  intro s t c rest r hin hstep hout hfault
  rcases step_raises_or_completes hin with ⟨cause, e⟩ | ⟨t', r', e, hout', hzero⟩
  · obtain rfl := Host.Outcome.next.inj (e.symm.trans hstep)
    obtain rfl : (raise binary64 cause s.toBlock).2 = r := (List.cons.inj hout).1
    rw [raise_fault_toNat]
    refine ⟨?_, ?_, reportsFault_raise .., takeInput_finish_raise hin cause⟩ <;> cases cause <;> decide
  · obtain rfl := Host.Outcome.next.inj (e.symm.trans hstep)
    obtain rfl := (List.cons.inj (hout'.symm.trans hout)).1
    exact absurd hzero hfault

end Sys2Proof.Machine
end

section
/-! Hardware reset and the idle port (70_reset_and_hazards.md R150, R151; 60_exceptions.md R148). -/

namespace Sys2Proof.Machine

section
variable {s : State} {rest : List Input}

theorem step_of_idle (hin : s.inputs = []) : step s = .next s := by
  rw [step, hin]

/-- The abandoned command plays no part in the step. -/
theorem step_of_reset {inProgress : Option Command} (hin : s.inputs = .reset inProgress :: rest) :
    step s = .next s.takeInput.hardReset := by
  rw [step, hin]

/-- Taking the reset event and resetting replaces the architectural block, and keeps the rest of the instance. -/
theorem takeInput_hardReset {e : Input} (hin : s.inputs = e :: rest) :
    s.takeInput.hardReset = { s with toBlock := Block.reset 0#64, inputs := rest } := by
  rw [State.takeInput, hin, List.tail_cons]
  rfl

end

/-- Settles O39: on a reset event the block becomes `Block.reset`, whose fields are the reset values; with nothing presented
the step answers the state itself. -/
theorem hardResetAndIdleSteps : Obligations.HardResetAndIdleSteps := by
  refine ⟨fun s inProgress rest hin => ?_, fun s hin => step_of_idle hin⟩
  rw [step_of_reset hin, takeInput_hardReset hin, Block.reset]

end Sys2Proof.Machine
end
